-- ==== Sys2Proof/Word.lean ====
section
/-! DEFINITION. The word types of the ByteEncoder CORE (00_scope.md R11, R12; 10_state.md R22, R26, R74). -/

namespace Sys2Proof

/-- A byte: 8 bits, unsigned (R11). -/
abbrev Byte := BitVec 8

/-- A port word: a CMD command word or a VALUE response, 32 bits crossing whole (R55, R74). -/
abbrev Word := BitVec 32

/-- A count of bytes: CURSOR, CAP, dcap and the count of a DATA response, 24 bits (R22, R26, R40, R79). -/
abbrev Count := BitVec 24

end Sys2Proof
end

