-- ==== Sys2Proof/Config.lean ====
section
/-! DEFINITION. The elaboration parameters of an instance of the block (00_scope.md R8 to R10): which unit it is, its
escape-index table, its capacity and ERR_COMBINE. They are fields of State, so a claim over all states holds for
every value of them. The values State.reset takes are named here: logs 2, 3, 4 and 5. -/

namespace Sys2Proof

/-- The unit type of a CMD port: an encoder's or a decoder's (R75, R82). -/
inductive UnitKind where
  | enc
  | dec
  deriving DecidableEq, Repr

/-- Field U of a command word for each unit: 0 for an encoder command, 1 for a decoder command (R74). -/
def UnitKind.bit : UnitKind → Bool
  | .enc => false
  | .dec => true

/-- What a second error event does to an error already recorded (R8, R151). The spec leaves it OPEN (D5, log 5). -/
inductive ErrCombine where
  | lastWins
  | firstWins
  deriving DecidableEq, Repr

/-- The six configuration registers of an instance, which are its escape-index lookup table (R32, R95). Entry k pairs a
marker with an escape index: SOF with IDX0, EOF with IDX1, ESC with IDX2. -/
structure Lut where
  sof  : Byte
  eof  : Byte
  esc  : Byte
  idx0 : Byte
  idx1 : Byte
  idx2 : Byte
  deriving DecidableEq, Repr

/-- The default configuration bytes (R8, R10; the source's literals are unaudited, log 4). -/
def Lut.default : Lut :=
  { sof := 0x7D#8, eof := 0x7E#8, esc := 0x7F#8, idx0 := 0x00#8, idx1 := 0x01#8, idx2 := 0x02#8 }

/-- The three markers are pairwise distinct and so are the three indices: the hypothesis of R100 and R141. The hardware
does not check it (R9). -/
abbrev Lut.Distinct (t : Lut) : Prop :=
  t.sof ≠ t.eof ∧ t.sof ≠ t.esc ∧ t.eof ≠ t.esc ∧ t.idx0 ≠ t.idx1 ∧ t.idx0 ≠ t.idx2 ∧ t.idx1 ≠ t.idx2

/-- What the host gives when it elaborates an instance (R8, R171). The capacity is a natural number here, because the
host may ask for one that no instance can have. -/
structure ElabParams where
  cap        : Nat
  lut        : Lut
  errCombine : ErrCombine
  deriving DecidableEq, Repr

/-- The greatest legal capacity, 2^24 - 3 (R8). -/
def Config.maxCap : Nat := 16777213

/-- The parameters of the two instances of State.reset: the greatest capacity (DESIGN CHOICE, log 3), the default
configuration bytes (R10, log 4) and the reference ERR_COMBINE (R8, log 5). -/
def Config.resetParams : ElabParams :=
  { cap := Config.maxCap, lut := Lut.default, errCombine := .lastWins }

end Sys2Proof
end

