-- ==== Sys2Proof/Syntax.lean ====
section
/-! DEFINITION. The command set: one constructor for each row of spec/opcode_table.json (30_encoding.md R80, R81). -/

namespace Sys2Proof

/-- A legal command of the block with its operands (R79). -/
inductive Instr where
  /-- ENC.FEED: the payload byte (R106). -/
  | encFeed (b : Byte)
  /-- ENC.RESET (R109). -/
  | encReset
  /-- ENC.SIZE (R110). -/
  | encSize
  /-- ENC.GETRESULT: field N (the null destination) and the destination capacity (R113). -/
  | encGetresult (null : Bool) (dcap : Count)
  /-- ENC.STATUS (R115). -/
  | encStatus
  /-- DEC.FEED: the wire byte (R124). -/
  | decFeed (b : Byte)
  /-- DEC.RESET (R134). -/
  | decReset
  /-- DEC.SETCB: field N, 0 to register and 1 to deregister the consumer (R135). -/
  | decSetcb (off : Bool)
  /-- DEC.STATUS (R136). -/
  | decStatus
  deriving DecidableEq, Repr

/-- The unit whose port takes the command (R75, R80, R81). -/
def Instr.unit : Instr → UnitKind
  | .encFeed _ => .enc
  | .encReset => .enc
  | .encSize => .enc
  | .encGetresult _ _ => .enc
  | .encStatus => .enc
  | .decFeed _ => .dec
  | .decReset => .dec
  | .decSetcb _ => .dec
  | .decStatus => .dec

end Sys2Proof
end

