-- ==== Sys2Proof/WellFormed.lean ====
section
/-! DEFINITION. What a command and a set of elaboration parameters must meet. Operand ranges need no check: an operand's
type is its width (R79). -/

namespace Sys2Proof

/-- A command may stand on the port of one unit only: field U must equal the unit type of the port (R75). -/
def Instr.wf (u : UnitKind) (i : Instr) : Bool :=
  decide (i.unit = u)

/-- Legal elaboration parameters: 1 ≤ CAP ≤ 2^24 - 3 (R8, R171). Any six configuration bytes are accepted (R9). -/
def ElabParams.wf (p : ElabParams) : Bool :=
  decide (1 ≤ p.cap) && decide (p.cap ≤ Config.maxCap)

end Sys2Proof
end

