-- ==== Sys2Proof/Decode.lean ====
section
/-! DEFINITION. The command word (30_encoding.md R74 to R85): its fields, the total decoder of R82, and the encoder written
from the opcode maps R80 and R81. -/

namespace Sys2Proof

/-- Field U, bit 31 (R74). -/
def fieldU (w : Word) : Bool := w.getLsbD 31

/-- Field OP, bits 30:28 (R74, R76). -/
def fieldOp (w : Word) : BitVec 3 := w.extractLsb' 28 3

/-- Field N, bit 27 (R74, R77). -/
def fieldN (w : Word) : Bool := w.getLsbD 27

/-- Field RSV, bits 26:24 (R74, R78). -/
def fieldRsv (w : Word) : BitVec 3 := w.extractLsb' 24 3

/-- Field OPND, bits 23:0 (R74, R79). -/
def fieldOpnd (w : Word) : BitVec 24 := w.extractLsb' 0 24

/-- Bits 23:8 of OPND, which a FEED requires to be 0 (R79). -/
def opndHigh (opnd : BitVec 24) : BitVec 16 := opnd.extractLsb' 8 16

/-- Bits 7:0 of OPND, the byte of a FEED (R79). -/
def opndByte (opnd : BitVec 24) : Byte := opnd.extractLsb' 0 8

/-- The encoder's half of R82: the operation, field N and OPND of a word that passed the checks on U and RSV. -/
def decodeEnc (op : BitVec 3) (n : Bool) (opnd : BitVec 24) : Option Instr :=
  if op = 0b000#3 then
    if n = false ∧ opndHigh opnd = 0#16 then some (.encFeed (opndByte opnd)) else none
  else if op = 0b001#3 then
    if n = false ∧ opnd = 0#24 then some .encReset else none
  else if op = 0b010#3 then
    if n = false ∧ opnd = 0#24 then some .encSize else none
  else if op = 0b011#3 then
    some (.encGetresult n opnd)
  else if op = 0b100#3 then
    if n = false ∧ opnd = 0#24 then some .encStatus else none
  else
    none

/-- The decoder unit's half of R82. -/
def decodeDec (op : BitVec 3) (n : Bool) (opnd : BitVec 24) : Option Instr :=
  if op = 0b000#3 then
    if n = false ∧ opndHigh opnd = 0#16 then some (.decFeed (opndByte opnd)) else none
  else if op = 0b001#3 then
    if n = false ∧ opnd = 0#24 then some .decReset else none
  else if op = 0b010#3 then
    if opnd = 0#24 then some (.decSetcb n) else none
  else if op = 0b100#3 then
    if n = false ∧ opnd = 0#24 then some .decStatus else none
  else
    none

/-- Decode(unit, w) of R82; none is ILLEGAL (R83, R84). -/
def decode (u : UnitKind) (w : Word) : Option Instr :=
  if fieldU w ≠ u.bit ∨ fieldRsv w ≠ 0#3 then
    none
  else
    match u with
    | .enc => decodeEnc (fieldOp w) (fieldN w) (fieldOpnd w)
    | .dec => decodeDec (fieldOp w) (fieldN w) (fieldOpnd w)

/-- Which unit's port a word is meant for, read from field U (R75). -/
def unitOfWord (w : Word) : UnitKind :=
  if fieldU w then .dec else .enc

/-- A command word put together from its fields U, OP, N and OPND, with RSV = 0b000 (R74, R78). -/
def assembleWord (u : Bool) (op : BitVec 3) (n : Bool) (opnd : BitVec 24) : Word :=
  BitVec.ofBool u ++ op ++ BitVec.ofBool n ++ (0b000#3 ++ opnd)

/-- The operand field of a FEED: the byte in OPND[7:0] and zeros above it (R79). -/
def opndOfByte (b : Byte) : BitVec 24 := 0#16 ++ b

/-- The word of each command, from the opcode maps R80 and R81. -/
def encode : Instr → Word
  | .encFeed b => assembleWord false 0b000#3 false (opndOfByte b)
  | .encReset => assembleWord false 0b001#3 false 0#24
  | .encSize => assembleWord false 0b010#3 false 0#24
  | .encGetresult null dcap => assembleWord false 0b011#3 null dcap
  | .encStatus => assembleWord false 0b100#3 false 0#24
  | .decFeed b => assembleWord true 0b000#3 false (opndOfByte b)
  | .decReset => assembleWord true 0b001#3 false 0#24
  | .decSetcb off => assembleWord true 0b010#3 off 0#24
  | .decStatus => assembleWord true 0b100#3 false 0#24

/-- The 32-bit command word whose nbits low bits are those of w and whose other bits are 0. -/
def tableWord (nbits w : Nat) : Word := BitVec.ofNat 32 (w % 2 ^ nbits)

/-- The command the decoder reads from the bits of a row of spec/opcode_table.json. A row's bit 31 is field U, which says
on which unit's port the word is legal. Every command is exactly one 32-bit word (R85). -/
def decodeTableWord (nbits w : Nat) : Option Instr :=
  if nbits ≤ 32 then decode (unitOfWord (tableWord nbits w)) (tableWord nbits w) else none

end Sys2Proof
end

