-- ==== Sys2Proof/Machine/State.lean ====
section
/-! DEFINITION. The architectural state of the block (10_state.md): every encoder and decoder with all their fields, the
ports, the agents' schedule, the reasons a step can stop, and the state after elaboration (R43, R172). -/

namespace Sys2Proof.Machine

/-- The codes of the ERR register (R150). The code 0b11 is never written, so it is no constructor (log 19). -/
inductive ErrCode where
  /-- NONE, 0b00: no error since the last reset. -/
  | noError
  /-- BUF_INSUFFICIENT, 0b01: an Append found CURSOR = CAP. -/
  | bufInsufficient
  /-- DECODE_ERROR, 0b10: the byte after ESC matches no escape index. -/
  | decodeError
  deriving DecidableEq, Repr

/-- The states of D.FSM (R30). The code 0b11 is never held, so it is no constructor (log 19). -/
inductive Fsm where
  /-- SFS, SearchingForStart, 0b00. -/
  | sfs
  /-- RP, ReadingPayload, 0b01. -/
  | rp
  /-- REB, ReadingEscapedByte, 0b10. -/
  | reb
  deriving DecidableEq, Repr

/-- A response on an RSP port (R40). -/
inductive Response where
  | ack
  | value (v : Word)
  | data (k : Count) (bytes : List Byte)
  | illegal
  deriving DecidableEq, Repr

/-- What can be observed at the ports of one instance (R42): a command word it takes, a response it gives (R40), a
delivery it emits (R41). -/
inductive Event where
  | cmd (w : Word)
  | rsp (r : Response)
  | dlv (bytes : List Byte) (len : Count) (err : ErrCode)
  deriving DecidableEq, Repr

/-- A buffer's contents: (address, byte) cells with addresses strictly rising. An address with no cell holds no value
(R44, log 7). -/
abbrev Memory := List Host.Cell

/-- The state an encoder and a decoder have in common (R22, R26), with their CMD port and the record of their ports. -/
structure Inst where
  /-- The buffer BUF (R48). -/
  buf        : Memory
  /-- CURSOR, the count of bytes written since the last reset (R23, R27). -/
  cursor     : Count
  /-- ERR, the sticky error flag (R24, R28). -/
  err        : ErrCode
  /-- The configuration registers SOF, EOF, ESC, IDX0, IDX1, IDX2 (R32), constant. -/
  lut        : Lut
  /-- The capacity CAP (R8), constant. -/
  cap        : Count
  /-- The parameter ERR_COMBINE (R8, R151), constant. -/
  errCombine : ErrCombine
  /-- The CMD port: the command word issued and not yet responded to (R39, R63). -/
  cmd        : Option Word
  /-- What has passed at the ports, oldest first (R42, log 6). No command reads it. -/
  obs        : List Event
  deriving DecidableEq, Repr

/-- An encoder holds exactly the common state (R22). -/
abbrev Encoder := Inst

/-- When the consumer behind a DLV port finishes with a delivery (R137, R183, log 9): within the DEC.FEED that makes it,
or only at a later move of the consumer, which may never come. -/
inductive Consumer where
  | prompt
  | holding
  deriving DecidableEq, Repr

/-- A decoder (R26). -/
structure Decoder extends Inst where
  /-- FSM, the frame-reassembly state (R30). -/
  fsm        : Fsm
  /-- CB_EN, 1 when a consumer is registered (R29). -/
  cbEn       : Bool
  /-- The consumer behind the DLV port (R19). -/
  consumer   : Consumer
  /-- A delivery has been emitted and its consumer has not finished with it (R137, R160, R183). -/
  delivering : Bool
  deriving DecidableEq, Repr

/-- The CMD port of an instance: the k-th encoder's or the k-th decoder's (R39). -/
inductive Port where
  | enc (k : Nat)
  | dec (k : Nat)
  deriving DecidableEq, Repr

/-- The unit type of a port (R75). -/
def Port.unit : Port → UnitKind
  | .enc _ => .enc
  | .dec _ => .dec

/-- What one agent does next (R19, R177, log 1). -/
inductive Move where
  /-- The host elaborates one more encoder (R171). -/
  | elabEnc (p : ElabParams)
  /-- The host elaborates one more decoder (R171). -/
  | elabDec (p : ElabParams)
  /-- The host puts a command word on a CMD port (R39). -/
  | issue (p : Port) (w : Word)
  /-- An instance carries out the command outstanding on its port (R16). -/
  | run (p : Port)
  /-- The consumer of the k-th decoder finishes with the delivery in progress (R137, R183). -/
  | finish (k : Nat)
  /-- The host puts another consumer behind the DLV port of the k-th decoder (R135, R177, log 27). -/
  | attach (k : Nat) (c : Consumer)
  deriving DecidableEq, Repr

/-- The whole system: its instances (R164) and what its agents do next. -/
structure State where
  /-- The encoders (NE of them, R8). -/
  encs  : List Encoder
  /-- The decoders (ND of them, R8). -/
  decs  : List Decoder
  /-- The number of the instance whose command is being carried out (log 10). -/
  sel   : Nat
  /-- The moves to come, the next one first (log 1). -/
  sched : List Move
  deriving DecidableEq, Repr

/-- Why the model stops where the block cannot be. None can happen in a state that meets State.Inv. -/
inductive Fault where
  /-- Raised by Inst.memWrite: a write to a buffer address at or above CAP, which does not exist (R60). Safe (log 8). -/
  | noSuchAddress
  /-- Raised by Inst.memRead: a read that reaches past CURSOR (R53 allows the fault). Safe (log 7). -/
  | readPastCursor
  /-- Raised by Inst.memRead: a byte below CURSOR that holds no value (R44 allows the fault). Safe (log 7). -/
  | unwrittenByte
  deriving DecidableEq, Repr

/-- What the model refuses. -/
inductive Refusal where
  /-- Raised by exec for a command with no meaning yet; no command has this. Safe. -/
  | notModelled (mnemonic : String)
  /-- Raised by a move or a command that names an instance that does not exist. Safe (log 11). -/
  | noSuchInstance
  /-- Raised by the move issue: the port's previous command has not responded (R63, R184). Safe for what it stops, and
  the host's duty H-A1 is an assumption (log 12). -/
  | overlappingCommand
  /-- Raised by the move issue and by every decoder command: a delivery of that decoder is in progress (R137, R160). Safe
  for what it stops, and the host's duty H-A2 is an assumption (log 13). -/
  | commandDuringDelivery
  /-- Raised by the moves elabEnc and elabDec: CAP is 0 or above 2^24 - 3 (R171). Safe (log 23). -/
  | badCapacity
  deriving DecidableEq, Repr

/-- An encoder just elaborated: the column 'after elaboration' of R43. -/
def Encoder.elaborated (p : ElabParams) : Encoder :=
  { buf := [], cursor := 0#24, err := .noError, lut := p.lut, cap := BitVec.ofNat 24 p.cap, errCombine := p.errCombine
    cmd := none, obs := [] }

/-- A decoder just elaborated: the column 'after elaboration' of R43. -/
def Decoder.elaborated (p : ElabParams) : Decoder :=
  { toInst := Encoder.elaborated p, fsm := .sfs, cbEn := false, consumer := .prompt, delivering := false }

/-- The state after power-on, which is elaboration (R172): one encoder and one decoder (log 2), just elaborated with
Config.resetParams, and nothing scheduled (log 15). -/
def State.reset : State :=
  { encs := [Encoder.elaborated Config.resetParams], decs := [Decoder.elaborated Config.resetParams], sel := 0, sched := [] }

end Sys2Proof.Machine
end

