-- ==== Sys2Proof/Machine/Flags.lean ====
section
/-! DEFINITION. The error flag ERR and the status word (60_exceptions.md R150, R151; 10_state.md R30, R37). -/

namespace Sys2Proof.Machine

/-- The 2-bit code of ERR (R150). -/
def ErrCode.code : ErrCode → BitVec 2
  | .noError => 0b00#2
  | .bufInsufficient => 0b01#2
  | .decodeError => 0b10#2

/-- The 2-bit code of D.FSM (R30). -/
def Fsm.code : Fsm → BitVec 2
  | .sfs => 0b00#2
  | .rp => 0b01#2
  | .reb => 0b10#2

/-- What ERR holds after `raise new` when it held `old` (R151). -/
def combineErr (m : ErrCombine) (old new : ErrCode) : ErrCode :=
  if m = .lastWins ∨ old = .noError then new else old

/-- `raise E(U)` (R151): record the code; the command goes on. -/
def Inst.raise (u : Inst) (c : ErrCode) : Inst :=
  { u with err := combineErr u.errCombine u.err c }

/-- The status word (R37): CURSOR in bits 31:8, zeros in 7:5, CB_EN in 4, FSM in 3:2, ERR in 1:0. -/
def statusWord (cursor : Count) (cbEn : Bool) (fsm : BitVec 2) (err : ErrCode) : Word :=
  cursor ++ 0b000#3 ++ BitVec.ofBool cbEn ++ fsm ++ err.code

end Sys2Proof.Machine
end

