-- ==== Sys2Proof/Machine/Operands.lean ====
section
/-! DEFINITION. The escape-index lookup table (40_escape_index_lut.md) and the wire units it makes (30_encoding.md R68). -/

namespace Sys2Proof.Machine

/-- EncLUT(U, b): the index of the first entry whose marker is b (R97, log 17). -/
def encLut (t : Lut) (b : Byte) : Option Byte :=
  if b = t.sof then some t.idx0
  else if b = t.eof then some t.idx1
  else if b = t.esc then some t.idx2
  else none

/-- DecLUT(U, i): the marker of the first entry whose index is i (R98, log 17). -/
def decLut (t : Lut) (i : Byte) : Option Byte :=
  if i = t.idx0 then some t.sof
  else if i = t.idx1 then some t.eof
  else if i = t.idx2 then some t.esc
  else none

/-- b is a marker (R99). -/
def isMarker (t : Lut) (b : Byte) : Bool := (encLut t b).isSome

/-- The wire unit of one payload byte (R68). -/
def wireUnit (t : Lut) (b : Byte) : List Byte :=
  match encLut t b with
  | some i => [t.esc, i]
  | none => [b]

/-- The escaped payload (R68). -/
def escapePayload (t : Lut) : List Byte → List Byte
  | [] => []
  | b :: bs => wireUnit t b ++ escapePayload t bs

/-- The frame of a payload on the wire (R67). -/
def wireFrame (t : Lut) (payload : List Byte) : List Byte :=
  t.sof :: (escapePayload t payload ++ [t.eof])

/-- How many bytes of a payload are markers: m of R70. -/
def markerCount (t : Lut) : List Byte → Nat
  | [] => 0
  | b :: bs => (if isMarker t b then 1 else 0) + markerCount t bs

end Sys2Proof.Machine
end

