-- ==== Sys2Proof/Machine/Ops.lean ====
section
/-! DEFINITION. The shared operations: the buffer primitives MemRead, MemWrite and Append (20_memory.md R51 to R53), the
ports (10_state.md R39 to R41), the resets' common part, and how a command reaches the instance it acts on. The block
has no traps (60_exceptions.md R158): what takes their place is Inst.raise of Flags.lean and Inst.respond of ILLEGAL. -/

namespace Sys2Proof.Machine

/-- The byte at address a, none where the buffer holds no value (R44). -/
def Memory.read : Memory → Nat → Option Byte
  | [], _ => none
  | c :: m, a => if c.1 = a then some c.2 else Memory.read m a

/-- The buffer after byte v is written at address a, in canonical form. -/
def Memory.write : Memory → Nat → Byte → Memory
  | [], a, v => [(a, v)]
  | c :: m, a, v =>
    if a < c.1 then (a, v) :: c :: m
    else if c.1 = a then (a, v) :: m
    else c :: Memory.write m a v

/-- The bytes at addresses a, a+1, …, a+n-1, the byte at a first; none if one of them holds no value. -/
def Memory.readN (m : Memory) : Nat → Nat → Option (List Byte)
  | _, 0 => some []
  | a, n + 1 =>
    match Memory.read m a, Memory.readN m (a + 1) n with
    | some v, some vs => some (v :: vs)
    | _, _ => none

/-- All addresses of the cells are above a and strictly rising. -/
def Memory.risesAbove : Nat → Memory → Bool
  | _, [] => true
  | a, c :: m => decide (a < c.1) && Memory.risesAbove c.1 m

/-- The canonical form of a buffer: addresses strictly rising. An unlisted address holds no value, so no cell can equal
what an unlisted address reads as. -/
def Memory.wf : Memory → Bool
  | [] => true
  | c :: m => Memory.risesAbove c.1 m

/-- MemWrite(U.BUF, a, 1, v) (R14). An address at or above CAP does not exist (R60, log 8). -/
def Inst.memWrite (u : Inst) (a : Nat) (v : Byte) : Except Fault Inst :=
  if a < u.cap.toNat then .ok { u with buf := Memory.write u.buf a v } else .error .noSuchAddress

/-- MemRead(U.BUF, a, n), with its precondition a + n ≤ CURSOR (R14, R53). -/
def Inst.memRead (u : Inst) (a n : Nat) : Except Fault (List Byte) :=
  if a + n ≤ u.cursor.toNat then
    match Memory.readN u.buf a n with
    | some vs => .ok vs
    | none => .error .unwrittenByte
  else .error .readPastCursor

/-- Append(U, v) (R51): refused, with BufferInsufficient raised, exactly when CURSOR = CAP (R52). -/
def Inst.append (u : Inst) (v : Byte) : Except Fault Inst :=
  if u.cursor = u.cap then
    .ok (u.raise .bufInsufficient)
  else
    match u.memWrite u.cursor.toNat v with
    | .ok u' => .ok { u' with cursor := u'.cursor + 1#24 }
    | .error r => .error r

/-- What a reset clears in every instance: CURSOR <- 0, ERR <- NONE (R109, R126, R134). The buffer's bytes stay (R43). -/
def Inst.clear (u : Inst) : Inst :=
  { u with cursor := 0#24, err := .noError }

/-- `respond R` (R14, R40): the response goes out on the RSP port and the command is no longer outstanding. -/
def Inst.respond (u : Inst) (r : Response) : Inst :=
  { u with cmd := none, obs := u.obs ++ [.rsp r] }

/-- `deliver(bytes, len, err)` (R14, R41): one event goes out on the DLV port. -/
def Inst.deliver (u : Inst) (bytes : List Byte) (len : Count) (err : ErrCode) : Inst :=
  { u with obs := u.obs ++ [.dlv bytes len err] }

/-- The instance takes the command word outstanding on its port (R40, log 25). -/
def Inst.take (u : Inst) (w : Word) : Inst :=
  { u with obs := u.obs ++ [.cmd w] }

/-- `respond R` of a decoder. -/
def Decoder.respond (d : Decoder) (r : Response) : Decoder :=
  { d with toInst := d.toInst.respond r }

/-- The clearing of a decoder: by DEC.RESET (R134) and by the implicit reset of a frame's end (R126, R174). D.CB_EN and
the configuration stay. -/
def Decoder.clear (d : Decoder) : Decoder :=
  { d with toInst := d.toInst.clear, fsm := .sfs }

/-- The encoder the running command acts on. -/
def State.enc? (s : State) : Option Encoder := s.encs[s.sel]?

/-- The decoder the running command acts on. -/
def State.dec? (s : State) : Option Decoder := s.decs[s.sel]?

/-- The state with the encoder that the running command acts on replaced. -/
def State.setEnc (s : State) (e : Encoder) : State := { s with encs := s.encs.set s.sel e }

/-- The state with the decoder that the running command acts on replaced. -/
def State.setDec (s : State) (d : Decoder) : State := { s with decs := s.decs.set s.sel d }

/-- Carry out an encoder command on the encoder it is for: nothing else of the state changes (R45). -/
def onEncoder (s : State) (f : Encoder → Except Fault Encoder) : Host.Outcome State Fault Refusal :=
  match s.enc? with
  | none => .refused .noSuchInstance
  | some e =>
    match f e with
    | .ok e' => .next (s.setEnc e')
    | .error r => .fault r

/-- Carry out a decoder command on the decoder it is for: nothing else of the state changes (R45). A command during a
delivery of that decoder is refused (R137, R160, log 13). -/
def onDecoder (s : State) (f : Decoder → Except Fault Decoder) : Host.Outcome State Fault Refusal :=
  match s.dec? with
  | none => .refused .noSuchInstance
  | some d =>
    if d.delivering then .refused .commandDuringDelivery
    else
      match f d with
      | .ok d' => .next (s.setDec d')
      | .error r => .fault r

end Sys2Proof.Machine
end

