-- ==== Sys2Proof/Machine/DecoderCmds.lean ====
section
/-! DEFINITION. The decoder family: DEC.FEED with the frame-reassembly state machine, DEC.RESET, DEC.SETCB, DEC.STATUS
(42_decoder.md), and the end of a delivery that its consumer held open. -/

namespace Sys2Proof.Machine

/-- Append to a decoder's buffer (R51). -/
def Decoder.append (d : Decoder) (v : Byte) : Except Fault Decoder :=
  match d.toInst.append v with
  | .ok u => .ok { d with toInst := u }
  | .error r => .error r

/-- The end of a completed frame: the implicit reset (R126, R174), then the ACK. -/
def Decoder.endFrame (d : Decoder) : Decoder := d.clear.respond .ack

/-- Row 3, EOF in RP (R126). With a consumer registered, the delivery takes the buffer, CURSOR and ERR as they stand
before the implicit reset. A prompt consumer finishes within the command; with one that holds the delivery the command
does not respond until it finishes (R183, log 9). With none registered the frame is discarded (R138). -/
def completeFrame (d : Decoder) : Except Fault Decoder :=
  if d.cbEn then
    match d.toInst.memRead 0 d.cursor.toNat with
    | .ok vs =>
      let d1 : Decoder := { d with toInst := d.toInst.deliver vs d.cursor d.err }
      match d.consumer with
      | .prompt => .ok d1.endFrame
      | .holding => .ok { d1 with delivering := true }
    | .error r => .error r
  else .ok d.endFrame

/-- DEC.FEED in SFS: rows 1 and 2 (R127). -/
def feedSearching (b : Byte) (d : Decoder) : Except Fault Decoder :=
  if b = d.lut.sof then .ok (Decoder.respond { d with fsm := .rp } .ack) else .ok (d.respond .ack)

/-- DEC.FEED in RP: rows 3, 4 and 5, EOF compared first (R125, R126, R128, R129, log 17). -/
def feedPayload (b : Byte) (d : Decoder) : Except Fault Decoder :=
  if b = d.lut.eof then completeFrame d
  else if b = d.lut.esc then .ok (Decoder.respond { d with fsm := .reb } .ack)
  else
    match d.append b with
    | .ok d1 => .ok (d1.respond .ack)
    | .error r => .error r

/-- DEC.FEED in REB: rows 6 to 9 (R130, R131). The frame goes on in RP whatever happened (R132). -/
def feedEscaped (b : Byte) (d : Decoder) : Except Fault Decoder :=
  match decLut d.lut b with
  | some m =>
    match d.append m with
    | .ok d1 => .ok (Decoder.respond { d1 with fsm := .rp } .ack)
    | .error r => .error r
  | none => .ok (Decoder.respond { d with toInst := d.toInst.raise .decodeError, fsm := .rp } .ack)

/-- DEC.FEED on one decoder: exactly one row of the transition table (R124). -/
def feedDecoder (b : Byte) (d : Decoder) : Except Fault Decoder :=
  match d.fsm with
  | .sfs => feedSearching b d
  | .rp => feedPayload b d
  | .reb => feedEscaped b d

/-- DEC.FEED (R124). -/
def execDecFeed (b : Byte) (s : State) : Host.Outcome State Fault Refusal :=
  onDecoder s (feedDecoder b)

/-- DEC.RESET on one decoder (R134). It emits no delivery, and D.CB_EN stays (R173). -/
def resetDecoder (d : Decoder) : Except Fault Decoder :=
  .ok (d.clear.respond .ack)

/-- DEC.RESET (R134). -/
def execDecReset (s : State) : Host.Outcome State Fault Refusal :=
  onDecoder s resetDecoder

/-- DEC.SETCB on one decoder (R135): off = 0 registers the consumer, off = 1 deregisters it. -/
def setcbDecoder (off : Bool) (d : Decoder) : Except Fault Decoder :=
  .ok (Decoder.respond { d with cbEn := !off } .ack)

/-- DEC.SETCB (R135). -/
def execDecSetcb (off : Bool) (s : State) : Host.Outcome State Fault Refusal :=
  onDecoder s (setcbDecoder off)

/-- DEC.STATUS on one decoder (R136). -/
def statusDecoder (d : Decoder) : Except Fault Decoder :=
  .ok (d.respond (.value (statusWord d.cursor d.cbEn d.fsm.code d.err)))

/-- DEC.STATUS (R136). -/
def execDecStatus (s : State) : Host.Outcome State Fault Refusal :=
  onDecoder s statusDecoder

/-- The consumer of a decoder finishes with the delivery in progress: the DEC.FEED that made it ends (R137, R183). -/
def finishDelivery (d : Decoder) : Decoder :=
  Decoder.endFrame { d with delivering := false }

end Sys2Proof.Machine
end

