-- ==== Sys2Proof/Machine/EncoderCmds.lean ====
section
/-! DEFINITION. The encoder family: ENC.FEED, ENC.RESET, ENC.SIZE, ENC.GETRESULT, ENC.STATUS (41_encoder.md). Each
command is a function on one encoder, and its meaning carries it out on the encoder the command is for. -/

namespace Sys2Proof.Machine

/-- ENC.FEED on one encoder (R106): a marker is appended as ESC and its index, in two appends that are each checked for
room (R58, R107). -/
def feedEncoder (b : Byte) (e : Encoder) : Except Fault Encoder :=
  match encLut e.lut b with
  | some i =>
    match e.append e.lut.esc with
    | .ok e1 =>
      match e1.append i with
      | .ok e2 => .ok (e2.respond .ack)
      | .error r => .error r
    | .error r => .error r
  | none =>
    match e.append b with
    | .ok e1 => .ok (e1.respond .ack)
    | .error r => .error r

/-- ENC.FEED (R106). -/
def execEncFeed (b : Byte) (s : State) : Host.Outcome State Fault Refusal :=
  onEncoder s (feedEncoder b)

/-- ENC.RESET on one encoder (R109). -/
def resetEncoder (e : Encoder) : Except Fault Encoder :=
  .ok ((Inst.clear e).respond .ack)

/-- ENC.RESET (R109). -/
def execEncReset (s : State) : Host.Outcome State Fault Refusal :=
  onEncoder s resetEncoder

/-- The value of ENC.SIZE: CURSOR + 2 in exact arithmetic (R36, R110). -/
def frameSize (e : Encoder) : Nat := e.cursor.toNat + 2

/-- ENC.SIZE on one encoder (R110). -/
def sizeEncoder (e : Encoder) : Except Fault Encoder :=
  .ok (e.respond (.value (BitVec.ofNat 32 (frameSize e))))

/-- ENC.SIZE (R110). -/
def execEncSize (s : State) : Host.Outcome State Fault Refusal :=
  onEncoder s sizeEncoder

/-- The frame image F(E) (R112). -/
def frameImage (e : Encoder) : Except Fault (List Byte) :=
  match e.memRead 0 e.cursor.toNat with
  | .ok vs => .ok ([e.lut.sof] ++ vs ++ [e.lut.eof])
  | .error r => .error r

/-- ENC.GETRESULT on one encoder (R113): the frame image or its first dcap bytes (R114, log 16). -/
def readEncoder (null : Bool) (dcap : Count) (e : Encoder) : Except Fault Encoder :=
  if null = true ∨ dcap = 0#24 then
    .ok (e.respond (.data 0#24 []))
  else
    match frameImage e with
    | .ok f =>
      let k := min (frameSize e) dcap.toNat
      .ok (e.respond (.data (BitVec.ofNat 24 k) (f.take k)))
    | .error r => .error r

/-- ENC.GETRESULT (R113). -/
def execEncGetresult (null : Bool) (dcap : Count) (s : State) : Host.Outcome State Fault Refusal :=
  onEncoder s (readEncoder null dcap)

/-- ENC.STATUS on one encoder (R115): the FSM and CB_EN fields of an encoder are 0 (R37). -/
def statusEncoder (e : Encoder) : Except Fault Encoder :=
  .ok (e.respond (.value (statusWord e.cursor false 0b00#2 e.err)))

/-- ENC.STATUS (R115). -/
def execEncStatus (s : State) : Host.Outcome State Fault Refusal :=
  onEncoder s statusEncoder

end Sys2Proof.Machine
end

