-- ==== Sys2Proof/Machine/Dispatch.lean ====
section
/-! DEFINITION. The meaning of every command: one arm per constructor of Instr. -/

namespace Sys2Proof.Machine

def exec (i : Instr) (s : State) : Host.Outcome State Fault Refusal :=
  match i with
  | .encFeed b => Sys2Proof.Machine.execEncFeed b s
  | .encReset => Sys2Proof.Machine.execEncReset s
  | .encSize => Sys2Proof.Machine.execEncSize s
  | .encGetresult null dcap => Sys2Proof.Machine.execEncGetresult null dcap s
  | .encStatus => Sys2Proof.Machine.execEncStatus s
  | .decFeed b => Sys2Proof.Machine.execDecFeed b s
  | .decReset => Sys2Proof.Machine.execDecReset s
  | .decSetcb off => Sys2Proof.Machine.execDecSetcb off s
  | .decStatus => Sys2Proof.Machine.execDecStatus s

end Sys2Proof.Machine
end

