-- ==== Sys2Proof/Machine/Moves.lean ====
section
/-! DEFINITION. What each agent's move does to the state (00_scope.md R19, 70_reset_and_hazards.md R171, R177, log 1). -/

namespace Sys2Proof.Machine

/-- The host elaborates an encoder (R171): refused for an illegal capacity (log 23). -/
def elaborateEnc (p : ElabParams) (s : State) : Host.Outcome State Fault Refusal :=
  if p.wf then .next { s with encs := s.encs ++ [Encoder.elaborated p] } else .refused .badCapacity

/-- The host elaborates a decoder (R171): refused for an illegal capacity (log 23). -/
def elaborateDec (p : ElabParams) (s : State) : Host.Outcome State Fault Refusal :=
  if p.wf then .next { s with decs := s.decs ++ [Decoder.elaborated p] } else .refused .badCapacity

/-- The word outstanding on a port, none where the port does not exist. -/
def State.outstanding (s : State) : Port → Option (Option Word)
  | .enc k => (s.encs[k]?).map fun e => e.cmd
  | .dec k => (s.decs[k]?).map fun d => d.cmd

/-- A delivery of the instance at the port is in progress (R137). An encoder makes none (R116). -/
def State.deliveringAt (s : State) : Port → Bool
  | .enc _ => false
  | .dec k => match s.decs[k]? with
    | some d => d.delivering
    | none => false

/-- The state with a word put on a port, as its outstanding command. -/
def State.putCmd (s : State) (p : Port) (w : Word) : State :=
  match p with
  | .enc k => { s with encs := s.encs.modify k fun e => { e with cmd := some w } }
  | .dec k => { s with decs := s.decs.modify k fun d => { d with cmd := some w } }

/-- The host issues a command word (R39). A command to an instance with one outstanding, or with a delivery in progress,
is refused (R63, R137, R184, logs 12 and 13). -/
def issueCmd (p : Port) (w : Word) (s : State) : Host.Outcome State Fault Refusal :=
  match s.outstanding p with
  | none => .refused .noSuchInstance
  | some c =>
    if s.deliveringAt p then .refused .commandDuringDelivery
    else if c.isSome then .refused .overlappingCommand
    else .next (s.putCmd p w)

/-- The instance at a port takes the word w outstanding there and becomes the one whose command is carried out. -/
def State.accept (s : State) (p : Port) (w : Word) : State :=
  match p with
  | .enc k => { s with sel := k, encs := s.encs.modify k fun e => e.take w }
  | .dec k => { s with sel := k, decs := s.decs.modify k fun d => { d with toInst := d.toInst.take w } }

/-- The response to an illegal word: ILLEGAL, and nothing else (R83, R156). -/
def State.respondIllegal (s : State) (p : Port) : State :=
  match p with
  | .enc k => { s with encs := s.encs.modify k fun e => e.respond .illegal }
  | .dec k => { s with decs := s.decs.modify k fun d => d.respond .illegal }

/-- The instance at a port carries out its outstanding command: decode first, then the command (R157). With nothing
outstanding, and while a delivery of its own holds the command (R183), it does nothing (R19, log 26). -/
def runPort (p : Port) (s : State) : Host.Outcome State Fault Refusal :=
  match s.outstanding p with
  | none => .refused .noSuchInstance
  | some none => .next s
  | some (some w) =>
    if s.deliveringAt p then .next s
    else
      match decode p.unit w with
      | some i => exec i (s.accept p w)
      | none => .next ((s.accept p w).respondIllegal p)

/-- The consumer of the k-th decoder finishes (R137). With no delivery in progress it has no part (R19). -/
def finishConsumer (k : Nat) (s : State) : Host.Outcome State Fault Refusal :=
  match s.decs[k]? with
  | none => .refused .noSuchInstance
  | some d => if d.delivering then .next { s with decs := s.decs.set k (finishDelivery d) } else .next s

/-- The host puts another consumer behind the DLV port of the k-th decoder (R29, R135, R177). The spec does not say what
this does to a delivery in progress. The model's choice (log 27): it is allowed then too, and the delivery stays open until
a move finish, also when the new consumer is prompt. -/
def attachConsumer (k : Nat) (c : Consumer) (s : State) : Host.Outcome State Fault Refusal :=
  match s.decs[k]? with
  | none => .refused .noSuchInstance
  | some d => .next { s with decs := s.decs.set k { d with consumer := c } }

/-- One agent's move. -/
def doMove (m : Move) (s : State) : Host.Outcome State Fault Refusal :=
  match m with
  | .elabEnc p => elaborateEnc p s
  | .elabDec p => elaborateDec p s
  | .issue p w => issueCmd p w s
  | .run p => runPort p s
  | .finish k => finishConsumer k s
  | .attach k c => attachConsumer k c s

/-- The port that a word of the opcode table is run on by State.withFetchWord: the first encoder's or the first
decoder's, by field U of the word (R75). -/
def portOfWord (w : Word) : Port :=
  match unitOfWord w with
  | .enc => .enc 0
  | .dec => .dec 0

/-- The state with no delivery in progress at a port. -/
def State.endDeliveryAt (s : State) (p : Port) : State :=
  match p with
  | .enc _ => s
  | .dec k => { s with decs := s.decs.modify k fun d => { d with delivering := false } }

/-- The state whose next move is to run the word w on the port it is meant for (log 15). -/
def placeWord (s : State) (w : Word) : State :=
  let s1 := (s.endDeliveryAt (portOfWord w)).putCmd (portOfWord w) w
  { s1 with sched := .run (portOfWord w) :: s1.sched }

end Sys2Proof.Machine
end

