-- ==== Sys2Proof/Machine/Step.lean ====
section
/-! DEFINITION. One step of the system: the next move of the schedule (log 1). -/

namespace Sys2Proof.Machine

/-- The next agent makes its move. With no move to come the run has ended (R187) and the state is kept (R168, log 26). -/
def step (s : State) : Host.Outcome State Fault Refusal :=
  match s.sched with
  | [] => .next s
  | m :: ms => doMove m { s with sched := ms }

/-- s with a command word outstanding on the first encoder or the first decoder, by field U of the word, and the run of
that port as the very next move (log 15). -/
def State.withFetchWord (s : State) (nbits w : Nat) : State :=
  placeWord s (tableWord nbits w)

end Sys2Proof.Machine
end

