-- ==== Sys2Proof/Machine/HostProgram.lean ====
section
/-! DEFINITION. What a host writes (30_encoding.md R86 to R89): the assembler forms as a tree (log 21), the
pseudo-commands' expansions, the moves of a host that keeps its duties, and a sequence of commands on one instance. -/

namespace Sys2Proof.Machine

/-- A line of assembler (R86 to R88). -/
inductive AsmLine where
  | encFeed (b : Byte)
  | encReset
  | encSize
  | encGetresult (dcap : Count)
  | encGetresultNull
  | encStatus
  | decFeed (b : Byte)
  | decReset
  | decSetcbOn
  | decSetcbOff
  | decStatus
  | word (w : Word)
  | encFeedblock (bs : List Byte)
  | decFeedblock (bs : List Byte)
  deriving DecidableEq, Repr

/-- The commands enc.feedblock expands to (R87). -/
def encFeedblock (bs : List Byte) : List Instr := bs.map .encFeed

/-- The commands dec.feedblock expands to (R88). -/
def decFeedblock (bs : List Byte) : List Instr := bs.map .decFeed

/-- The words of a line (R86). -/
def assemble : AsmLine → List Word
  | .encFeed b => [encode (.encFeed b)]
  | .encReset => [encode .encReset]
  | .encSize => [encode .encSize]
  | .encGetresult dcap => [encode (.encGetresult false dcap)]
  | .encGetresultNull => [encode (.encGetresult true 0#24)]
  | .encStatus => [encode .encStatus]
  | .decFeed b => [encode (.decFeed b)]
  | .decReset => [encode .decReset]
  | .decSetcbOn => [encode (.decSetcb false)]
  | .decSetcbOff => [encode (.decSetcb true)]
  | .decStatus => [encode .decStatus]
  | .word w => [w]
  | .encFeedblock bs => (encFeedblock bs).map encode
  | .decFeedblock bs => (decFeedblock bs).map encode

/-- The moves that put words on one port, each carried out before the next is issued: the host keeps H-A1 (R184). -/
def hostMoves (p : Port) : List Word → List Move
  | [] => []
  | w :: ws => .issue p w :: .run p :: hostMoves p ws

/-- Commands carried out one after another on the instance of their unit that the state selects. -/
def execAll : List Instr → State → Host.Outcome State Fault Refusal
  | [], s => .next s
  | i :: is, s =>
    match exec i s with
    | .next t => execAll is t
    | .fault r => .fault r
    | .refused r => .refused r

end Sys2Proof.Machine
end

