-- ==== Sys2Proof/Safety.lean ====
section
/-! DEFINITION. What a good state is, in the terms the claims use: the invariants the spec states (10_state.md R24, R35,
R36, R44; 00_scope.md R8), and when two instances cannot be told apart (R42, R44). -/

namespace Sys2Proof.Machine

/-- CAP is legal (R8) and CURSOR is at most CAP (R36); the buffer is in canonical form and inside [0, CAP) (R60), and
every byte below CURSOR has a value (R44). -/
structure Inst.Inv (u : Inst) : Prop where
  capPos     : 1 ≤ u.cap.toNat
  capMax     : u.cap.toNat ≤ Config.maxCap
  cursorCap  : u.cursor.toNat ≤ u.cap.toNat
  bufWf      : Memory.wf u.buf = true
  bufInside  : ∀ c ∈ u.buf, c.1 < u.cap.toNat
  bufWritten : ∀ a, a < u.cursor.toNat → (Memory.read u.buf a).isSome = true

/-- A good encoder: it never records DecodeError (R24). -/
structure Encoder.Inv (e : Encoder) : Prop where
  base   : Inst.Inv e
  noDecodeError : e.err ≠ .decodeError

/-- A good decoder: in SFS, CURSOR = 0 and ERR = NONE (R35); a delivery in progress is that of an EOF in RP with a
consumer registered, whose DEC.FEED has not responded (R126, R137). -/
structure Decoder.Inv (d : Decoder) : Prop where
  base       : d.toInst.Inv
  searching  : d.fsm = .sfs → d.cursor = 0#24 ∧ d.err = .noError
  inDelivery : d.delivering = true → d.fsm = .rp ∧ d.cbEn = true ∧ d.cmd.isSome = true

/-- A good state: every instance is good. -/
structure State.Inv (s : State) : Prop where
  encs : ∀ e ∈ s.encs, Encoder.Inv e
  decs : ∀ d ∈ s.decs, Decoder.Inv d

/-- Two instances with the same registers, parameters and CMD port, and the same buffer bytes below CURSOR. What is above
CURSOR, and what passed at the ports before, may differ (R44). -/
structure Inst.Alike (u v : Inst) : Prop where
  cursor     : u.cursor = v.cursor
  err        : u.err = v.err
  lut        : u.lut = v.lut
  cap        : u.cap = v.cap
  errCombine : u.errCombine = v.errCombine
  cmd        : u.cmd = v.cmd
  written    : ∀ a, a < u.cursor.toNat → Memory.read u.buf a = Memory.read v.buf a

/-- Two decoders that are alike in all but what is above CURSOR and what passed before. -/
structure Decoder.Alike (c d : Decoder) : Prop where
  base       : Inst.Alike c.toInst d.toInst
  fsm        : c.fsm = d.fsm
  cbEn       : c.cbEn = d.cbEn
  consumer   : c.consumer = d.consumer
  delivering : c.delivering = d.delivering

/-- The events at a port are exactly one exchange for each of the command words, in order: the command, at most one
delivery, then its one response (R40, R41, R62). -/
inductive Exchanges : List Word → List Event → Prop where
  | nil : Exchanges [] []
  | plain (w : Word) (r : Response) {ws : List Word} {evs : List Event} (rest : Exchanges ws evs) :
      Exchanges (w :: ws) (.cmd w :: .rsp r :: evs)
  | withDelivery (w : Word) (bs : List Byte) (len : Count) (err : ErrCode) (r : Response) {ws : List Word}
      {evs : List Event} (rest : Exchanges ws evs) : Exchanges (w :: ws) (.cmd w :: .dlv bs len err :: .rsp r :: evs)

/-- What has passed at a port, none where the port does not exist. -/
def State.events (s : State) : Port → Option (List Event)
  | .enc k => (s.encs[k]?).map fun e => e.obs
  | .dec k => (s.decs[k]?).map fun d => d.obs

/-- The consumer behind a decoder's port finishes with every delivery at once (H-A3). An encoder has no consumer. -/
def State.promptAt (s : State) : Port → Prop
  | .enc _ => True
  | .dec k => ∀ d, s.decs[k]? = some d → d.consumer = .prompt

/-- The port whose instance a move concerns, none for an elaboration. -/
def Move.port? : Move → Option Port
  | .elabEnc _ => none
  | .elabDec _ => none
  | .issue p _ => some p
  | .run p => some p
  | .finish k => some (.dec k)
  | .attach k _ => some (.dec k)

/-- The deliveries among the events, in order (R41). -/
def deliveries : List Event → List (List Byte × Count × ErrCode)
  | [] => []
  | .dlv bs len err :: es => (bs, len, err) :: deliveries es
  | .rsp _ :: es => deliveries es
  | .cmd _ :: es => deliveries es

end Sys2Proof.Machine
end

