-- ==== Sys2Proof/Certificates/Slice0/Obligations.lean ====
section
/-! DEFINITION. The statements for the provers. Each docstring names the rule of spec/ it rests on. -/

open Sys2Proof Sys2Proof.Machine

/-! ## Encodings -/

/-- Decoding the word of any command, on the port of its unit, gives the command back with every operand (R79 to R82). -/
def Obligations.DecodeOfEncodeIsSame : Prop :=
  ∀ i : Instr, decode i.unit (encode i) = some i

/-- A word that decodes on a port is a command of that port's unit, and it is that command's only word (R75, R80 to R82). -/
def Obligations.DecodedWordIsItsEncoding : Prop :=
  ∀ (u : UnitKind) (w : Word) (i : Instr), decode u w = some i → Instr.wf u i = true ∧ encode i = w

/-- Each row of the opcode maps: a word decodes to the row's command exactly when its masked bits are the row's match
value (R80, R81). -/
def Obligations.DecodeFollowsMatchAndMask : Prop :=
  ∀ w : Word,
    ((∃ b, decode .enc w = some (.encFeed b)) ↔ w &&& 0xFFFFFF00#32 = 0x00000000#32) ∧
    (decode .enc w = some .encReset ↔ w &&& 0xFFFFFFFF#32 = 0x10000000#32) ∧
    (decode .enc w = some .encSize ↔ w &&& 0xFFFFFFFF#32 = 0x20000000#32) ∧
    ((∃ n c, decode .enc w = some (.encGetresult n c)) ↔ w &&& 0xF7000000#32 = 0x30000000#32) ∧
    (decode .enc w = some .encStatus ↔ w &&& 0xFFFFFFFF#32 = 0x40000000#32) ∧
    ((∃ b, decode .dec w = some (.decFeed b)) ↔ w &&& 0xFFFFFF00#32 = 0x80000000#32) ∧
    (decode .dec w = some .decReset ↔ w &&& 0xFFFFFFFF#32 = 0x90000000#32) ∧
    ((∃ n, decode .dec w = some (.decSetcb n)) ↔ w &&& 0xF7FFFFFF#32 = 0xA0000000#32) ∧
    (decode .dec w = some .decStatus ↔ w &&& 0xFFFFFFFF#32 = 0xC0000000#32)

/-- The reserved words of R84 are illegal on their ports, and ENC.GETRESULT with N = 1 and any OPND is not. -/
def Obligations.ReservedWordsAreIllegal : Prop :=
  (∀ w : Word, (fieldOp w = 0b101#3 ∨ fieldOp w = 0b110#3 ∨ fieldOp w = 0b111#3) → decode .enc w = none) ∧
  (∀ w : Word, (fieldOp w = 0b011#3 ∨ fieldOp w = 0b101#3 ∨ fieldOp w = 0b110#3 ∨ fieldOp w = 0b111#3) →
    decode .dec w = none) ∧
  (∀ (u : UnitKind) (w : Word), w.extractLsb' 24 3 ≠ 0b000#3 → decode u w = none) ∧
  (∀ (u : UnitKind) (w : Word), w.getLsbD 31 ≠ u.bit → decode u w = none) ∧
  (∀ w : Word, w.getLsbD 27 = true → fieldOp w ≠ 0b011#3 → decode .enc w = none) ∧
  (∀ w : Word, w.getLsbD 27 = true → fieldOp w ≠ 0b010#3 → decode .dec w = none) ∧
  (∀ w : Word, w.extractLsb' 0 24 ≠ 0#24 → fieldOp w ≠ 0b000#3 → fieldOp w ≠ 0b011#3 → decode .enc w = none) ∧
  (∀ w : Word, w.extractLsb' 0 24 ≠ 0#24 → fieldOp w ≠ 0b000#3 → decode .dec w = none) ∧
  (∀ (u : UnitKind) (w : Word), fieldOp w = 0b000#3 → w.extractLsb' 8 16 ≠ 0#16 → decode u w = none) ∧
  (∀ c : Count, decode .enc (0x38000000#32 ||| c.setWidth 32) = some (.encGetresult true c))

/-- The worked encodings of R90, row by row. -/
def Obligations.WorkedEncodingsDecode : Prop :=
  decode .enc 0x0000007D#32 = some (.encFeed 0x7D#8) ∧
  decode .dec 0x8000007E#32 = some (.decFeed 0x7E#8) ∧
  decode .enc 0x30000010#32 = some (.encGetresult false 16#24) ∧
  decode .enc 0x38000000#32 = some (.encGetresult true 0#24) ∧
  decode .enc 0x38000010#32 = some (.encGetresult true 16#24) ∧
  decode .dec 0xA8000000#32 = some (.decSetcb true) ∧
  decode .enc 0x50000000#32 = none ∧
  decode .enc 0x01000000#32 = none ∧
  decode .enc 0x08000055#32 = none ∧
  decode .enc 0x00000100#32 = none ∧
  decode .enc 0x80000041#32 = none ∧
  decode .dec 0xB0000000#32 = none ∧
  decode .dec 0xA0000001#32 = none

/-- The assembler forms make the words of R86, and a feedblock expands to the FEEDs of its bytes in order, so an empty
one to no command (R87 to R89). The forms as a tree are the model's choice (log 21). -/
def Obligations.AssemblerFormsMakeTheirWords : Prop :=
  (∀ b : Byte, assemble (.encFeed b) = [b.setWidth 32]) ∧
  assemble .encReset = [0x10000000#32] ∧
  assemble .encSize = [0x20000000#32] ∧
  (∀ c : Count, assemble (.encGetresult c) = [0x30000000#32 ||| c.setWidth 32]) ∧
  assemble .encGetresultNull = [0x38000000#32] ∧
  assemble .encStatus = [0x40000000#32] ∧
  (∀ b : Byte, assemble (.decFeed b) = [0x80000000#32 ||| b.setWidth 32]) ∧
  assemble .decReset = [0x90000000#32] ∧
  assemble .decSetcbOn = [0xA0000000#32] ∧
  assemble .decSetcbOff = [0xA8000000#32] ∧
  assemble .decStatus = [0xC0000000#32] ∧
  (∀ w : Word, assemble (.word w) = [w]) ∧
  (∀ bs : List Byte, assemble (.encFeedblock bs) = bs.flatMap fun b => assemble (.encFeed b)) ∧
  (∀ bs : List Byte, assemble (.decFeedblock bs) = bs.flatMap fun b => assemble (.decFeed b)) ∧
  assemble (.encFeedblock []) = [] ∧ assemble (.decFeedblock []) = []

/-- A payload of n bytes with m markers is n + m bytes escaped and n + m + 2 bytes framed (R70). -/
def Obligations.FrameLengthCountsMarkersTwice : Prop :=
  ∀ (t : Lut) (P : List Byte),
    (escapePayload t P).length = P.length + markerCount t P ∧ (wireFrame t P).length = P.length + markerCount t P + 2

/-! ## The escape-index lookup table -/

/-- EncLUT tests SOF, then EOF, then ESC (R97); with distinct markers the order has no effect. The order for markers that
coincide is a choice, the spec's own (D23, I3) and the model's (log 17). A byte is a marker exactly when EncLUT finds it
(R99). -/
def Obligations.EncLutTakesFirstMatch : Prop :=
  ∀ (t : Lut) (b : Byte),
    (b = t.sof → encLut t b = some t.idx0) ∧
    (b ≠ t.sof → b = t.eof → encLut t b = some t.idx1) ∧
    (b ≠ t.sof → b ≠ t.eof → b = t.esc → encLut t b = some t.idx2) ∧
    (b ≠ t.sof → b ≠ t.eof → b ≠ t.esc → encLut t b = none) ∧
    (t.sof ≠ t.eof → t.sof ≠ t.esc → t.eof ≠ t.esc →
      encLut t t.sof = some t.idx0 ∧ encLut t t.eof = some t.idx1 ∧ encLut t t.esc = some t.idx2) ∧
    (isMarker t b = true ↔ encLut t b ≠ none) ∧ (isMarker t b = true ↔ b = t.sof ∨ b = t.eof ∨ b = t.esc)

/-- DecLUT tests IDX0, then IDX1, then IDX2 (R98). The order for indices that coincide is a choice, the spec's own (D23, I3)
and the model's (log 17). -/
def Obligations.DecLutTakesFirstMatch : Prop :=
  ∀ (t : Lut) (i : Byte),
    (i = t.idx0 → decLut t i = some t.sof) ∧
    (i ≠ t.idx0 → i = t.idx1 → decLut t i = some t.eof) ∧
    (i ≠ t.idx0 → i ≠ t.idx1 → i = t.idx2 → decLut t i = some t.esc) ∧
    (i ≠ t.idx0 → i ≠ t.idx1 → i ≠ t.idx2 → decLut t i = none)

/-- With distinct markers and distinct indices the two lookups are inverse to each other (R100). -/
def Obligations.LookupsAreInverse : Prop :=
  ∀ t : Lut, t.Distinct →
    (∀ m, isMarker t m = true → ∃ i, encLut t m = some i ∧ decLut t i = some m) ∧
    (∀ i, (i = t.idx0 ∨ i = t.idx1 ∨ i = t.idx2) → ∃ m, decLut t i = some m ∧ encLut t m = some i)

/-! ## Steps -/

/-- When the word outstanding on a port decodes to a command, the instance's move carries out that command, after the
instance has taken the word and become the selected one (R16, R82, R157; the schedule is the model's, log 1). -/
def Obligations.StepRunsTheDecodedCommand : Prop :=
  (∀ (s : State) (k : Nat) (ms : List Move) (e : Encoder) (w : Word) (i : Instr),
    s.sched = .run (.enc k) :: ms → s.encs[k]? = some e → e.cmd = some w → decode .enc w = some i →
    step s = exec i { s with sched := ms, sel := k, encs := s.encs.set k { e with obs := e.obs ++ [.cmd w] } }) ∧
  (∀ (s : State) (k : Nat) (ms : List Move) (d : Decoder) (w : Word) (i : Instr),
    s.sched = .run (.dec k) :: ms → s.decs[k]? = some d → d.cmd = some w → d.delivering = false →
    decode .dec w = some i →
    step s = exec i { s with sched := ms, sel := k, decs := s.decs.set k { d with obs := d.obs ++ [.cmd w] } })

/-- An illegal word gets the response ILLEGAL and changes nothing: not ERR, CURSOR, FSM, CB_EN or the buffer, and it
emits no delivery (R83, R156). Only the port's record and the outstanding word change. -/
def Obligations.IllegalWordChangesNothing : Prop :=
  (∀ (s : State) (k : Nat) (ms : List Move) (e : Encoder) (w : Word),
    s.sched = .run (.enc k) :: ms → s.encs[k]? = some e → e.cmd = some w → decode .enc w = none →
    step s = .next { s with
      sched := ms, sel := k
      encs := s.encs.set k { e with cmd := none, obs := e.obs ++ [.cmd w, .rsp .illegal] } }) ∧
  (∀ (s : State) (k : Nat) (ms : List Move) (d : Decoder) (w : Word),
    s.sched = .run (.dec k) :: ms → s.decs[k]? = some d → d.cmd = some w → d.delivering = false →
    decode .dec w = none →
    step s = .next { s with
      sched := ms, sel := k
      decs := s.decs.set k { d with cmd := none, obs := d.obs ++ [.cmd w, .rsp .illegal] } })

/-- The host may issue a command to an instance that has responded to the last one; an overlapping command is refused
(R63, R184). -/
def Obligations.OverlappingCommandIsRefused : Prop :=
  (∀ (s : State) (k : Nat) (ms : List Move) (e : Encoder) (w : Word),
    s.sched = .issue (.enc k) w :: ms → s.encs[k]? = some e →
    (e.cmd = none → step s = .next { s with sched := ms, encs := s.encs.set k { e with cmd := some w } }) ∧
    (e.cmd ≠ none → step s = .refused .overlappingCommand)) ∧
  (∀ (s : State) (k : Nat) (ms : List Move) (d : Decoder) (w : Word),
    s.sched = .issue (.dec k) w :: ms → s.decs[k]? = some d → d.delivering = false →
    (d.cmd = none → step s = .next { s with sched := ms, decs := s.decs.set k { d with cmd := some w } }) ∧
    (d.cmd ≠ none → step s = .refused .overlappingCommand))

/-- During a delivery of a decoder, a command to it is refused, whether it is being issued or carried out (R137, R160). -/
def Obligations.CommandDuringDeliveryIsRefused : Prop :=
  (∀ (s : State) (k : Nat) (ms : List Move) (d : Decoder) (w : Word),
    s.sched = .issue (.dec k) w :: ms → s.decs[k]? = some d → d.delivering = true →
    step s = .refused .commandDuringDelivery) ∧
  (∀ (s : State) (d : Decoder) (i : Instr),
    s.dec? = some d → d.delivering = true → i.unit = .dec → exec i s = .refused .commandDuringDelivery)

/-- With nothing scheduled, and when an instance with nothing outstanding is scheduled, nothing happens (R19, R168; the
schedule is the model's, log 26). -/
def Obligations.IdleBlockKeepsItsState : Prop :=
  (∀ s : State, s.sched = [] → step s = .next s) ∧
  (∀ (s : State) (p : Port) (ms : List Move),
    s.sched = .run p :: ms → s.outstanding p = some none → step s = .next { s with sched := ms })

/-- Elaboration gives a new instance the values of the column 'after elaboration' of R43, its six configuration bytes
whatever they are, and its capacity; and it is refused when CAP is 0 or above 2^24 - 3 (R8, R9, R43, R171, R172). That
CB_EN is 0 is a choice, the spec's own (D10, I14) and the model's (log 18). The unwritten buffer, the empty ports, the
prompt consumer and the refusal's name are the model's (logs 6, 7, 9, 23, 24). -/
def Obligations.ElaborationGivesResetValues : Prop :=
  (∀ (s : State) (p : ElabParams) (ms : List Move), s.sched = .elabEnc p :: ms → 1 ≤ p.cap → p.cap ≤ 2 ^ 24 - 3 →
    ∃ e : Encoder, step s = .next { s with sched := ms, encs := s.encs ++ [e] } ∧
      e.cursor = 0#24 ∧ e.err = .noError ∧ (∀ a, Memory.read e.buf a = none) ∧ e.lut = p.lut ∧
      e.cap.toNat = p.cap ∧ e.errCombine = p.errCombine ∧ e.cmd = none ∧ e.obs = []) ∧
  (∀ (s : State) (p : ElabParams) (ms : List Move), s.sched = .elabDec p :: ms → 1 ≤ p.cap → p.cap ≤ 2 ^ 24 - 3 →
    ∃ d : Decoder, step s = .next { s with sched := ms, decs := s.decs ++ [d] } ∧
      d.cursor = 0#24 ∧ d.err = .noError ∧ d.fsm = .sfs ∧ d.cbEn = false ∧ (∀ a, Memory.read d.buf a = none) ∧
      d.lut = p.lut ∧ d.cap.toNat = p.cap ∧ d.errCombine = p.errCombine ∧ d.consumer = .prompt ∧
      d.delivering = false ∧ d.cmd = none ∧ d.obs = []) ∧
  (∀ (s : State) (p : ElabParams) (ms : List Move), (s.sched = .elabEnc p :: ms ∨ s.sched = .elabDec p :: ms) →
    (p.cap = 0 ∨ 2 ^ 24 - 3 < p.cap) → step s = .refused .badCapacity)

/-! ## Invariants -/

/-- The state after reset is good. Its instances and their CAP are the model's choice (logs 2, 3). -/
def Obligations.ResetStateIsGood : Prop := State.Inv State.reset

/-- The state after power-on: every instance has the values of the column 'after elaboration' of R43, the default
configuration bytes of R8 and an empty record of its ports (R10, R43, R172). That CB_EN is 0 is a choice, the spec's own
(D10, I14) and the model's (log 18), and so are the six bytes (D4, log 4). That there is one encoder and one decoder, with
the greatest capacity, LAST_WINS, an unwritten buffer, empty ports, a prompt consumer and nothing scheduled, is the model's
choice (logs 2, 3, 5, 6, 7, 9, 15, 24). -/
def Obligations.ResetStateIsElaborated : Prop :=
  (∃ e : Encoder, State.reset.encs = [e] ∧ e.cursor = 0#24 ∧ e.err = .noError ∧ (∀ a, Memory.read e.buf a = none) ∧
    e.lut = { sof := 0x7D#8, eof := 0x7E#8, esc := 0x7F#8, idx0 := 0x00#8, idx1 := 0x01#8, idx2 := 0x02#8 } ∧
    e.cap.toNat = 2 ^ 24 - 3 ∧ e.errCombine = .lastWins ∧ e.cmd = none ∧ e.obs = []) ∧
  (∃ d : Decoder, State.reset.decs = [d] ∧ d.cursor = 0#24 ∧ d.err = .noError ∧ d.fsm = .sfs ∧ d.cbEn = false ∧
    (∀ a, Memory.read d.buf a = none) ∧
    d.lut = { sof := 0x7D#8, eof := 0x7E#8, esc := 0x7F#8, idx0 := 0x00#8, idx1 := 0x01#8, idx2 := 0x02#8 } ∧
    d.cap.toNat = 2 ^ 24 - 3 ∧ d.errCombine = .lastWins ∧ d.consumer = .prompt ∧ d.delivering = false ∧
    d.cmd = none ∧ d.obs = []) ∧
  State.reset.sched = []

/-- Every step keeps the state good: 0 ≤ CURSOR ≤ CAP (R36), CURSOR = 0 and ERR = NONE in SFS (R35), an encoder without
DecodeError (R24), every byte below CURSOR written (R44), buffers in canonical form inside [0, CAP) (R60). The form of
the buffer and of a delivery in progress is the model's (logs 7, 9). -/
def Obligations.StepKeepsStateGood : Prop :=
  ∀ s t : State, s.Inv → step s = .next t → t.Inv

/-- From a good state no step ends in a fault: no rule reads a byte at or above CURSOR or one with no value, and none
writes at or above CAP (R44, R53, R60). The faults are the model's (logs 7, 8). -/
def Obligations.GoodStateNeverFaults : Prop :=
  ∀ (s : State) (r : Fault), s.Inv → step s ≠ .fault r

/-! ## The encoder -/

/-- ENC.FEED appends the byte, or ESC and the index of a marker in two appends that are each checked for room; a refused
append writes nothing and records BUF_INSUFFICIENT as ERR_COMBINE says (R51, R106, R151). -/
def Obligations.EncFeedAppendsEscapedByte : Prop :=
  (∀ w : Word, w &&& 0xFFFFFF00#32 = 0x00000000#32 → decode .enc w = some (.encFeed (w.setWidth 8))) ∧
  ∀ (s : State) (e : Encoder) (b : Byte), s.enc? = some e → e.cursor.toNat ≤ e.cap.toNat →
    (encLut e.lut b = none → e.cursor.toNat < e.cap.toNat →
      exec (.encFeed b) s = .next (s.setEnc { e with
        buf := Memory.write e.buf e.cursor.toNat b, cursor := e.cursor + 1#24
        cmd := none, obs := e.obs ++ [.rsp .ack] })) ∧
    (∀ i, encLut e.lut b = some i → e.cursor.toNat + 1 < e.cap.toNat →
      exec (.encFeed b) s = .next (s.setEnc { e with
        buf := Memory.write (Memory.write e.buf e.cursor.toNat e.lut.esc) (e.cursor.toNat + 1) i
        cursor := e.cursor + 2#24, cmd := none, obs := e.obs ++ [.rsp .ack] })) ∧
    (∀ i, encLut e.lut b = some i → e.cursor.toNat + 1 = e.cap.toNat →
      exec (.encFeed b) s = .next (s.setEnc { e with
        buf := Memory.write e.buf e.cursor.toNat e.lut.esc, cursor := e.cap
        err := if e.errCombine = .lastWins ∨ e.err = .noError then .bufInsufficient else e.err
        cmd := none, obs := e.obs ++ [.rsp .ack] })) ∧
    (e.cursor.toNat = e.cap.toNat →
      exec (.encFeed b) s = .next (s.setEnc { e with
        err := if e.errCombine = .lastWins ∨ e.err = .noError then .bufInsufficient else e.err
        cmd := none, obs := e.obs ++ [.rsp .ack] }))

/-- A marker fed with one byte of room left leaves a lone ESC: ERR is BUF_INSUFFICIENT and the frame image ends in ESC,
EOF (R58, R107). -/
def Obligations.PartialEscapeLeavesLoneEsc : Prop :=
  ∀ (s : State) (e : Encoder) (b : Byte), s.enc? = some e → Encoder.Inv e → isMarker e.lut b = true →
    e.cursor.toNat + 1 = e.cap.toNat →
    ∃ (t : State) (e' : Encoder) (vs : List Byte), exec (.encFeed b) s = .next t ∧ t.enc? = some e' ∧
      e'.cursor = e.cap ∧ e'.err = .bufInsufficient ∧ Memory.read e'.buf (e.cap.toNat - 1) = some e.lut.esc ∧
      vs.length = e.cursor.toNat ∧ (∀ a, a < e.cursor.toNat → vs[a]? = Memory.read e.buf a) ∧
      ∀ dcap : Count, e.cap.toNat + 2 ≤ dcap.toNat →
        exec (.encGetresult false dcap) t = .next (t.setEnc { e' with
          cmd := none
          obs := e'.obs ++ [.rsp (.data (BitVec.ofNat 24 (e.cap.toNat + 2))
            ([e.lut.sof] ++ vs ++ [e.lut.esc, e.lut.eof]))] })

/-- Once the buffer is full, every later ENC.FEED writes nothing, raises BufferInsufficient again, completes and
returns ACK (R52, R108). -/
def Obligations.FullEncoderRefusesEveryFeed : Prop :=
  ∀ (s : State) (e : Encoder) (bs : List Byte), s.enc? = some e → Encoder.Inv e → e.cursor = e.cap →
    execAll (encFeedblock bs) s = .next (s.setEnc { e with
      err := if bs = [] then e.err else .bufInsufficient
      cmd := if bs = [] then e.cmd else none
      obs := e.obs ++ List.replicate bs.length (.rsp .ack) })

/-- ENC.RESET: CURSOR <- 0 and ERR <- NONE, in every encoder; nothing else of the block changes (R109). -/
def Obligations.EncResetClearsCursorAndErr : Prop :=
  (∀ w : Word, w &&& 0xFFFFFFFF#32 = 0x10000000#32 → decode .enc w = some .encReset) ∧
  ∀ (s : State) (e : Encoder), s.enc? = some e →
    exec .encReset s = .next (s.setEnc { e with
      cursor := 0#24, err := .noError, cmd := none, obs := e.obs ++ [.rsp .ack] })

/-- ENC.SIZE responds with CURSOR + 2 whatever ERR is, and changes no state (R110). -/
def Obligations.EncSizeIsCursorPlusTwo : Prop :=
  (∀ w : Word, w &&& 0xFFFFFFFF#32 = 0x20000000#32 → decode .enc w = some .encSize) ∧
  ∀ (s : State) (e : Encoder), s.enc? = some e →
    ∃ v : Word, v.toNat = e.cursor.toNat + 2 ∧
      exec .encSize s = .next (s.setEnc { e with cmd := none, obs := e.obs ++ [.rsp (.value v)] })

/-- ENC.GETRESULT responds with the first k = min(CURSOR + 2, dcap) bytes of the frame image, none for a null destination
or dcap = 0, whatever ERR is, and changes no state (R112, R113). That the bytes of a truncated readout are the first dcap
bytes is a choice, the spec's own (R114, D24, I2) and the model's (log 16). -/
def Obligations.EncGetresultCopiesFrameImage : Prop :=
  (∀ w : Word, w &&& 0xF7000000#32 = 0x30000000#32 →
    decode .enc w = some (.encGetresult (w.getLsbD 27) (w.setWidth 24))) ∧
  ∀ (s : State) (e : Encoder) (null : Bool) (dcap : Count), s.enc? = some e → Encoder.Inv e →
    ∃ vs : List Byte, vs.length = e.cursor.toNat ∧ (∀ a, a < e.cursor.toNat → vs[a]? = Memory.read e.buf a) ∧
      ((null = true ∨ dcap.toNat = 0) →
        exec (.encGetresult null dcap) s = .next (s.setEnc { e with
          cmd := none, obs := e.obs ++ [.rsp (.data 0#24 [])] })) ∧
      (null = false → dcap.toNat ≠ 0 →
        ∃ k : Count, k.toNat = min (e.cursor.toNat + 2) dcap.toNat ∧
          exec (.encGetresult null dcap) s = .next (s.setEnc { e with
            cmd := none
            obs := e.obs ++ [.rsp (.data k (([e.lut.sof] ++ vs ++ [e.lut.eof]).take k.toNat))] }))

/-- ENC.STATUS responds with the status word, field by field, and changes no state: reading does not clear ERR (R37,
R115). -/
def Obligations.EncStatusReadsStatusWord : Prop :=
  (∀ w : Word, w &&& 0xFFFFFFFF#32 = 0x40000000#32 → decode .enc w = some .encStatus) ∧
  ∀ (s : State) (e : Encoder), s.enc? = some e →
    ∃ v : Word, exec .encStatus s = .next (s.setEnc { e with cmd := none, obs := e.obs ++ [.rsp (.value v)] }) ∧
      v.extractLsb' 8 24 = e.cursor ∧ v.extractLsb' 4 4 = 0#4 ∧ v.extractLsb' 2 2 = 0b00#2 ∧
      v.extractLsb' 0 2 =
        (match e.err with
          | .noError => 0b00#2
          | .bufInsufficient => 0b01#2
          | .decodeError => 0b10#2)

/-- The frame of every encoder command (R38, R45, R50, R51): the other encoders and all decoders are unchanged, and so are
the configuration, CAP and ERR_COMBINE; one response is added at the port. ENC.FEED changes only the bytes from the old
CURSOR up to the new one, at most two and inside [0, CAP); the other commands change no byte; only FEED and RESET change
CURSOR and ERR. -/
def Obligations.EncoderCommandFrame : Prop :=
  ∀ (s t : State) (e : Encoder) (i : Instr), s.enc? = some e → i.unit = .enc → exec i s = .next t →
    ∃ e' r, t.enc? = some e' ∧ t.decs = s.decs ∧ t.sel = s.sel ∧ t.sched = s.sched ∧ t.encs.length = s.encs.length ∧
      (∀ k, k ≠ s.sel → t.encs[k]? = s.encs[k]?) ∧
      e'.lut = e.lut ∧ e'.cap = e.cap ∧ e'.errCombine = e.errCombine ∧ e'.cmd = none ∧ e'.obs = e.obs ++ [.rsp r] ∧
      (∀ a, ¬ (e.cursor.toNat ≤ a ∧ a < e'.cursor.toNat) → Memory.read e'.buf a = Memory.read e.buf a) ∧
      (∀ b, i = .encFeed b → e'.cursor.toNat = min (e.cursor.toNat + (wireUnit e.lut b).length) e.cap.toNat) ∧
      (i = .encReset → e'.cursor = 0#24 ∧ e'.err = .noError) ∧
      ((i = .encSize ∨ i = .encStatus ∨ ∃ n c, i = .encGetresult n c) → e'.cursor = e.cursor ∧ e'.err = e.err)

/-- ENC.SIZE, ENC.GETRESULT, ENC.STATUS and DEC.STATUS change no state, and two in a row give the same response (R59). -/
def Obligations.ReadingCommandsAreIdempotent : Prop :=
  (∀ (s t : State) (e : Encoder) (i : Instr), s.enc? = some e →
    (i = .encSize ∨ i = .encStatus ∨ ∃ n c, i = .encGetresult n c) → exec i s = .next t →
    ∃ r, t = s.setEnc { e with cmd := none, obs := e.obs ++ [.rsp r] } ∧
      exec i t = .next (s.setEnc { e with cmd := none, obs := e.obs ++ [.rsp r, .rsp r] })) ∧
  (∀ (s t : State) (d : Decoder), s.dec? = some d → exec .decStatus s = .next t →
    ∃ r, t = s.setDec { d with cmd := none, obs := d.obs ++ [.rsp r] } ∧
      exec .decStatus t = .next (s.setDec { d with cmd := none, obs := d.obs ++ [.rsp r, .rsp r] }))

/-- A payload fed to an encoder just after a reset, with room for its escaped form, is read out as its frame on the wire,
with ERR = NONE; in particular a single marker gives [SOF, ESC, index, EOF] and a payload without markers passes through
unchanged (R67, R68, R117). Which index stands for markers that coincide is a choice, the spec's own (D23) and the model's
(log 17). -/
def Obligations.EncoderMakesTheWireFrame : Prop :=
  (∀ (s : State) (e : Encoder) (P : List Byte), s.enc? = some e → e.cursor = 0#24 → e.err = .noError →
    (escapePayload e.lut P).length ≤ e.cap.toNat →
    ∃ (t : State) (e' : Encoder), execAll (encFeedblock P) s = .next t ∧ t.enc? = some e' ∧ e'.err = .noError ∧
      e'.cursor.toNat = (escapePayload e.lut P).length ∧
      ∀ dcap : Count, e'.cursor.toNat + 2 ≤ dcap.toNat →
        exec (.encGetresult false dcap) t = .next (t.setEnc { e' with
          cmd := none
          obs := e'.obs ++ [.rsp (.data (BitVec.ofNat 24 (e'.cursor.toNat + 2)) (wireFrame e.lut P))] })) ∧
  (∀ t : Lut, t.sof ≠ t.eof → t.sof ≠ t.esc → t.eof ≠ t.esc →
    wireFrame t [t.sof] = [t.sof, t.esc, t.idx0, t.eof] ∧ wireFrame t [t.eof] = [t.sof, t.esc, t.idx1, t.eof] ∧
    wireFrame t [t.esc] = [t.sof, t.esc, t.idx2, t.eof]) ∧
  (∀ (t : Lut) (P : List Byte), (∀ b ∈ P, isMarker t b = false) → wireFrame t P = [t.sof] ++ P ++ [t.eof])

/-- ENC.RESET and then any encoder commands give the responses of a newly elaborated encoder with the same parameters
given the same commands (R118, R175). -/
def Obligations.ResetEncoderIsLikeNew : Prop :=
  ∀ (s : State) (e : Encoder) (is : List Instr), s.enc? = some e → (∀ i ∈ is, i.unit = .enc) →
    ∃ (s1 t1 t2 : State) (e1 e2 : Encoder) (evs : List Event), exec .encReset s = .next s1 ∧
      execAll is s1 = .next t1 ∧
      execAll is (s.setEnc (Encoder.elaborated { cap := e.cap.toNat, lut := e.lut, errCombine := e.errCombine })) =
        .next t2 ∧
      t1.enc? = some e1 ∧ t2.enc? = some e2 ∧ e1.obs = e.obs ++ [.rsp .ack] ++ evs ∧ e2.obs = evs

/-- What an encoder's buffer holds at or above CURSOR, and its past, are never observed: two encoders that differ only
there answer alike and stay alike (R42, R44). -/
def Obligations.EncoderBytesAboveCursorUnobserved : Prop :=
  ∀ (s t : State) (e f : Encoder) (i : Instr), s.enc? = some e → Inst.Alike e f → i.unit = .enc → exec i s = .next t →
    ∃ (t' : State) (e' f' : Encoder) (evs : List Event), exec i (s.setEnc f) = .next t' ∧ t.enc? = some e' ∧
      t'.enc? = some f' ∧ e'.obs = e.obs ++ evs ∧ f'.obs = f.obs ++ evs ∧ Inst.Alike e' f'

/-! ## The decoder -/

/-- DEC.FEED in SFS: SOF starts a frame, any other byte is discarded, and nothing else changes; in a good decoder CURSOR is
0 and ERR is NONE then, and stay so (R127). -/
def Obligations.SearchingDecoderTakesOnlySof : Prop :=
  ∀ (s : State) (d : Decoder) (b : Byte), s.dec? = some d → d.delivering = false → d.fsm = .sfs →
    (b = d.lut.sof →
      exec (.decFeed b) s = .next (s.setDec { d with fsm := .rp, cmd := none, obs := d.obs ++ [.rsp .ack] })) ∧
    (b ≠ d.lut.sof →
      exec (.decFeed b) s = .next (s.setDec { d with cmd := none, obs := d.obs ++ [.rsp .ack] })) ∧
    (Decoder.Inv d → d.cursor = 0#24 ∧ d.err = .noError)

/-- EOF in RP completes the frame: with CB_EN = 1 one delivery of the CURSOR bytes of the buffer with ERR as it stands,
whatever ERR is, before the ACK; then CURSOR, ERR and FSM are cleared; with CB_EN = 0 the frame is discarded and the same
is cleared (R126, R138, R139). The consumer finishes at once here (H-A3, log 9). That EOF decides when it coincides with
ESC (D23, log 17), and that CB_EN is kept (D11, log 18), are choices, the spec's own and the model's. -/
def Obligations.EofCompletesTheFrame : Prop :=
  ∀ (s : State) (d : Decoder) (b : Byte), s.dec? = some d → Decoder.Inv d → d.delivering = false → d.fsm = .rp →
    b = d.lut.eof →
    (d.cbEn = true → d.consumer = .prompt →
      ∃ vs : List Byte, vs.length = d.cursor.toNat ∧ (∀ a, a < d.cursor.toNat → vs[a]? = Memory.read d.buf a) ∧
        exec (.decFeed b) s = .next (s.setDec { d with
          cursor := 0#24, err := .noError, fsm := .sfs, cmd := none
          obs := d.obs ++ [.dlv vs d.cursor d.err, .rsp .ack] })) ∧
    (d.cbEn = false →
      exec (.decFeed b) s = .next (s.setDec { d with
        cursor := 0#24, err := .noError, fsm := .sfs, cmd := none, obs := d.obs ++ [.rsp .ack] }))

/-- A consumer that does not finish leaves the DEC.FEED without its ACK: the delivery is out, the decoder does nothing
when scheduled and accepts no command; when the consumer finishes, the frame's end is completed and the ACK given (R137,
R183). The holding consumer is the model's form of it (log 9). That EOF decides when it coincides with ESC is a choice, the
spec's own (D23) and the model's (log 17). -/
def Obligations.HoldingConsumerDelaysTheAck : Prop :=
  (∀ (s : State) (d : Decoder), s.dec? = some d → Decoder.Inv d → d.delivering = false → d.fsm = .rp →
    d.cbEn = true → d.consumer = .holding →
    ∃ vs : List Byte, vs.length = d.cursor.toNat ∧ (∀ a, a < d.cursor.toNat → vs[a]? = Memory.read d.buf a) ∧
      exec (.decFeed d.lut.eof) s = .next (s.setDec { d with
        delivering := true, obs := d.obs ++ [.dlv vs d.cursor d.err] })) ∧
  (∀ (s : State) (k : Nat) (ms : List Move) (d : Decoder), s.decs[k]? = some d → d.delivering = true →
    (s.sched = .run (.dec k) :: ms → step s = .next { s with sched := ms }) ∧
    (∀ w, s.sched = .issue (.dec k) w :: ms → step s = .refused .commandDuringDelivery) ∧
    (s.sched = .finish k :: ms → step s = .next { s with
      sched := ms
      decs := s.decs.set k { d with
        cursor := 0#24, err := .noError, fsm := .sfs, delivering := false, cmd := none
        obs := d.obs ++ [.rsp .ack] } }))

/-- DEC.FEED in RP of a byte other than EOF: ESC goes to REB and appends nothing (R128); any other byte, SOF among them,
is appended, or refused on a full buffer, and FSM stays RP (R51, R129, R151). -/
def Obligations.PayloadByteIsAppended : Prop :=
  ∀ (s : State) (d : Decoder) (b : Byte), s.dec? = some d → d.delivering = false → d.fsm = .rp → b ≠ d.lut.eof →
    d.cursor.toNat ≤ d.cap.toNat →
    (b = d.lut.esc →
      exec (.decFeed b) s = .next (s.setDec { d with fsm := .reb, cmd := none, obs := d.obs ++ [.rsp .ack] })) ∧
    (b ≠ d.lut.esc → d.cursor.toNat < d.cap.toNat →
      exec (.decFeed b) s = .next (s.setDec { d with
        buf := Memory.write d.buf d.cursor.toNat b, cursor := d.cursor + 1#24
        cmd := none, obs := d.obs ++ [.rsp .ack] })) ∧
    (b ≠ d.lut.esc → d.cursor.toNat = d.cap.toNat →
      exec (.decFeed b) s = .next (s.setDec { d with
        err := if d.errCombine = .lastWins ∨ d.err = .noError then .bufInsufficient else d.err
        cmd := none, obs := d.obs ++ [.rsp .ack] }))

/-- DEC.FEED in REB of an escape index appends the marker it stands for, or has the append refused on a full buffer; FSM
becomes RP either way (R51, R130, R151). -/
def Obligations.EscapeIndexAppendsItsMarker : Prop :=
  ∀ (s : State) (d : Decoder) (b m : Byte), s.dec? = some d → d.delivering = false → d.fsm = .reb →
    decLut d.lut b = some m → d.cursor.toNat ≤ d.cap.toNat →
    (d.cursor.toNat < d.cap.toNat →
      exec (.decFeed b) s = .next (s.setDec { d with
        buf := Memory.write d.buf d.cursor.toNat m, cursor := d.cursor + 1#24, fsm := .rp
        cmd := none, obs := d.obs ++ [.rsp .ack] })) ∧
    (d.cursor.toNat = d.cap.toNat →
      exec (.decFeed b) s = .next (s.setDec { d with
        err := if d.errCombine = .lastWins ∨ d.err = .noError then .bufInsufficient else d.err
        fsm := .rp, cmd := none, obs := d.obs ++ [.rsp .ack] }))

/-- DEC.FEED in REB of a byte that is no escape index, EOF among them, raises DecodeError, appends nothing and goes on in
RP (R131, R151, R153). -/
def Obligations.BadEscapeIndexRaisesDecodeError : Prop :=
  ∀ (s : State) (d : Decoder) (b : Byte), s.dec? = some d → d.delivering = false → d.fsm = .reb →
    b ≠ d.lut.idx0 → b ≠ d.lut.idx1 → b ≠ d.lut.idx2 →
    exec (.decFeed b) s = .next (s.setDec { d with
      err := if d.errCombine = .lastWins ∨ d.err = .noError then .decodeError else d.err
      fsm := .rp, cmd := none, obs := d.obs ++ [.rsp .ack] })

/-- Every transition of the table happens whatever CURSOR is, so also on a full buffer: the next state depends on the
state, the byte and the configuration alone (R124, R125, R132). That EOF is compared before ESC in RP, which matters only
when they coincide, is a choice, the spec's own (D23, I3) and the model's (log 17). The consumer finishes at once (H-A3,
log 9). -/
def Obligations.FsmFollowsTransitionTable : Prop :=
  ∀ (s : State) (d : Decoder) (b : Byte), s.dec? = some d → Decoder.Inv d → d.delivering = false →
    d.consumer = .prompt →
    ∃ (t : State) (d' : Decoder), exec (.decFeed b) s = .next t ∧ t.dec? = some d' ∧
      d'.fsm =
        (match d.fsm with
          | .sfs => if b = d.lut.sof then .rp else .sfs
          | .rp => if b = d.lut.eof then .sfs else if b = d.lut.esc then .reb else .rp
          | .reb => .rp)

/-- DEC.RESET: FSM <- SFS, CURSOR <- 0, ERR <- NONE, no delivery; nothing else of the block changes (R134). That CB_EN is
kept is a choice, the spec's own (D11) and the model's (log 18). -/
def Obligations.DecResetForcesSearching : Prop :=
  (∀ w : Word, w &&& 0xFFFFFFFF#32 = 0x90000000#32 → decode .dec w = some .decReset) ∧
  ∀ (s : State) (d : Decoder), s.dec? = some d → d.delivering = false →
    exec .decReset s = .next (s.setDec { d with
      cursor := 0#24, err := .noError, fsm := .sfs, cmd := none, obs := d.obs ++ [.rsp .ack] })

/-- DEC.SETCB: CB_EN is 1 after off = 0 and 0 after off = 1; FSM, CURSOR, ERR and the rest are unchanged; a frame in
progress is delivered at its EOF exactly when CB_EN is 1 then, whatever it was before (R135). The consumer finishes at once
in the last clause (H-A3, log 9), where it is a choice, the spec's own (D23) and the model's (log 17), that EOF decides
when it coincides with ESC. -/
def Obligations.DecSetcbWritesCbEn : Prop :=
  (∀ w : Word, w &&& 0xF7FFFFFF#32 = 0xA0000000#32 → decode .dec w = some (.decSetcb (w.getLsbD 27))) ∧
  ∀ (s : State) (d : Decoder), s.dec? = some d → d.delivering = false →
    exec (.decSetcb false) s = .next (s.setDec { d with cbEn := true, cmd := none, obs := d.obs ++ [.rsp .ack] }) ∧
    exec (.decSetcb true) s = .next (s.setDec { d with cbEn := false, cmd := none, obs := d.obs ++ [.rsp .ack] }) ∧
    (Decoder.Inv d → d.fsm = .rp → d.consumer = .prompt → ∀ off : Bool,
      ∃ (t t' : State) (d' : Decoder), exec (.decSetcb off) s = .next t ∧ exec (.decFeed d.lut.eof) t = .next t' ∧
        t'.dec? = some d' ∧
        (off = false → ∃ bs, d'.obs = d.obs ++ [.rsp .ack, .dlv bs d.cursor d.err, .rsp .ack]) ∧
        (off = true → d'.obs = d.obs ++ [.rsp .ack, .rsp .ack]))

/-- DEC.STATUS responds with the status word, field by field, and changes no state; in SFS, so after a frame's EOF, a good
decoder's CURSOR and ERR fields read 0 (R37, R136). -/
def Obligations.DecStatusReadsStatusWord : Prop :=
  (∀ w : Word, w &&& 0xFFFFFFFF#32 = 0xC0000000#32 → decode .dec w = some .decStatus) ∧
  ∀ (s : State) (d : Decoder), s.dec? = some d → d.delivering = false →
    ∃ v : Word, exec .decStatus s = .next (s.setDec { d with cmd := none, obs := d.obs ++ [.rsp (.value v)] }) ∧
      v.extractLsb' 8 24 = d.cursor ∧ v.extractLsb' 5 3 = 0b000#3 ∧ v.getLsbD 4 = d.cbEn ∧
      v.extractLsb' 2 2 =
        (match d.fsm with
          | .sfs => 0b00#2
          | .rp => 0b01#2
          | .reb => 0b10#2) ∧
      v.extractLsb' 0 2 =
        (match d.err with
          | .noError => 0b00#2
          | .bufInsufficient => 0b01#2
          | .decodeError => 0b10#2) ∧
      (Decoder.Inv d → d.fsm = .sfs → v.extractLsb' 8 24 = 0#24 ∧ v.extractLsb' 0 2 = 0b00#2)

/-- The frame of every decoder command (R38, R41, R45, R50, R51): the other decoders and all encoders are unchanged, and
so are the configuration, CAP, ERR_COMBINE and the consumer; only DEC.FEED changes a byte, at most the one at the old
CURSOR; only FEED and RESET change CURSOR, ERR and FSM, only SETCB changes CB_EN; at most one delivery comes out, of a
DEC.FEED, and it comes before the response. That the resets keep CB_EN is a choice, the spec's own (D11) and the model's
(log 18). -/
def Obligations.DecoderCommandFrame : Prop :=
  ∀ (s t : State) (d : Decoder) (i : Instr), s.dec? = some d → i.unit = .dec → exec i s = .next t →
    ∃ d', t.dec? = some d' ∧ t.encs = s.encs ∧ t.sel = s.sel ∧ t.sched = s.sched ∧ t.decs.length = s.decs.length ∧
      (∀ k, k ≠ s.sel → t.decs[k]? = s.decs[k]?) ∧
      d'.lut = d.lut ∧ d'.cap = d.cap ∧ d'.errCombine = d.errCombine ∧ d'.consumer = d.consumer ∧
      (∀ a, ¬ (d.cursor.toNat ≤ a ∧ a < d'.cursor.toNat) → Memory.read d'.buf a = Memory.read d.buf a) ∧
      d'.cursor.toNat ≤ d.cursor.toNat + 1 ∧
      ((∃ n, i = .decSetcb n) ∨ i = .decStatus →
        d'.cursor = d.cursor ∧ d'.err = d.err ∧ d'.fsm = d.fsm) ∧
      ((∀ n, i ≠ .decSetcb n) → d'.cbEn = d.cbEn) ∧
      ((∀ b, i ≠ .decFeed b) → ∃ r, d'.obs = d.obs ++ [.rsp r]) ∧
      (∀ b, i = .decFeed b → d'.obs = d.obs ++ [.rsp .ack] ∨
        (∃ bs, d'.obs = d.obs ++ [.dlv bs d.cursor d.err, .rsp .ack]) ∨
        (d'.delivering = true ∧ ∃ bs, d'.obs = d.obs ++ [.dlv bs d.cursor d.err]))

/-- In SFS any bytes other than SOF leave the whole decoder as it was, but for the record of their ACKs (R140). -/
def Obligations.GarbageBeforeSofIsIgnored : Prop :=
  ∀ (s : State) (d : Decoder) (bs : List Byte), s.dec? = some d → d.delivering = false → d.fsm = .sfs →
    (∀ b ∈ bs, b ≠ d.lut.sof) →
    execAll (decFeedblock bs) s = .next (s.setDec { d with
      cmd := if bs = [] then d.cmd else none
      obs := d.obs ++ List.replicate bs.length (.rsp .ack) })

/-- DEC.RESET and then any decoder commands give the responses and deliveries of a newly elaborated decoder with the same
parameters and the same CB_EN given the same commands (R142, R175). The consumer finishes at once (H-A3, log 9). That
DEC.RESET keeps CB_EN is a choice, the spec's own (D11) and the model's (log 18). -/
def Obligations.ResetDecoderIsLikeNew : Prop :=
  ∀ (s : State) (d : Decoder) (is : List Instr), s.dec? = some d → d.delivering = false → d.consumer = .prompt →
    (∀ i ∈ is, i.unit = .dec) →
    ∃ (s1 t1 t2 : State) (d1 d2 : Decoder) (evs : List Event), exec .decReset s = .next s1 ∧
      execAll is s1 = .next t1 ∧
      execAll is (s.setDec { Decoder.elaborated { cap := d.cap.toNat, lut := d.lut, errCombine := d.errCombine } with
        cbEn := d.cbEn }) = .next t2 ∧
      t1.dec? = some d1 ∧ t2.dec? = some d2 ∧ d1.obs = d.obs ++ [.rsp .ack] ++ evs ∧ d2.obs = evs

/-- What a decoder's buffer holds at or above CURSOR, and its past, are never observed: two decoders that differ only
there answer alike and stay alike (R42, R44). -/
def Obligations.DecoderBytesAboveCursorUnobserved : Prop :=
  ∀ (s t : State) (c d : Decoder) (i : Instr), s.dec? = some c → Decoder.Alike c d → i.unit = .dec →
    exec i s = .next t →
    ∃ (t' : State) (c' d' : Decoder) (evs : List Event), exec i (s.setDec d) = .next t' ∧ t.dec? = some c' ∧
      t'.dec? = some d' ∧ c'.obs = c.obs ++ evs ∧ d'.obs = d.obs ++ evs ∧ Decoder.Alike c' d'

/-- The round trip: with the same configuration bytes, distinct markers and distinct indices, room for the escaped payload
in the encoder and for the payload in the decoder, the bytes of the encoder's frame make exactly one delivery, of the
payload with ERR = NONE, on the last byte, and leave the decoder in SFS with CURSOR = 0 (R141). -/
def Obligations.RoundTripDeliversThePayload : Prop :=
  ∀ (s t : State) (e : Encoder) (d : Decoder) (P : List Byte),
    s.enc? = some e → t.dec? = some d → d.lut = e.lut → e.lut.Distinct →
    e.cursor = 0#24 → e.err = .noError → Encoder.Inv e → P.length + markerCount e.lut P ≤ e.cap.toNat →
    Decoder.Inv d → d.fsm = .sfs → d.cbEn = true → d.consumer = .prompt → d.delivering = false →
    P.length ≤ d.cap.toNat →
    ∃ (s1 s2 t1 : State) (e1 : Encoder) (d1 : Decoder) (k len dcap : Count) (F : List Byte),
      execAll (encFeedblock P) s = .next s1 ∧ s1.enc? = some e1 ∧
      exec (.encGetresult false dcap) s1 = .next s2 ∧
      s2 = s1.setEnc { e1 with cmd := none, obs := e1.obs ++ [.rsp (.data k F)] } ∧
      k.toNat = P.length + markerCount e.lut P + 2 ∧ F.length = k.toNat ∧
      execAll (decFeedblock F) t = .next t1 ∧ t1.dec? = some d1 ∧ len.toNat = P.length ∧
      d1.obs = d.obs ++ List.replicate (F.length - 1) (.rsp .ack) ++ [.dlv P len .noError, .rsp .ack] ∧
      d1.fsm = .sfs ∧ d1.cursor = 0#24 ∧ d1.err = .noError

/-- The frame of a payload that is longer than the decoder's capacity still ends at its EOF: one delivery, on the last
byte, of the first CAP payload bytes with ERR = BUF_INSUFFICIENT, and the decoder is searching again (R126, R132, R139).
The consumer finishes at once (H-A3, log 9). -/
def Obligations.OversizedFrameDeliversFirstCapBytes : Prop :=
  ∀ (s : State) (d : Decoder) (P : List Byte),
    s.dec? = some d → Decoder.Inv d → d.lut.Distinct → d.fsm = .sfs → d.cbEn = true → d.consumer = .prompt →
    d.delivering = false → d.cap.toNat < P.length →
    ∃ (t : State) (d' : Decoder), execAll (decFeedblock (wireFrame d.lut P)) s = .next t ∧ t.dec? = some d' ∧
      d'.obs = d.obs ++ List.replicate ((wireFrame d.lut P).length - 1) (.rsp .ack) ++
        [.dlv (P.take d.cap.toNat) d.cap .bufInsufficient, .rsp .ack] ∧
      d'.fsm = .sfs ∧ d'.cursor = 0#24 ∧ d'.err = .noError

/-! ## Rules of the whole block -/

/-- ERR, once it holds an error, is cleared only by ENC.RESET, by DEC.RESET, or by the implicit reset at an EOF in RP
(R159). -/
def Obligations.ErrorStaysUntilReset : Prop :=
  (∀ (s t : State) (e e' : Encoder) (i : Instr), s.enc? = some e → exec i s = .next t → t.enc? = some e' →
    e.err ≠ .noError → e'.err = .noError → i = .encReset) ∧
  (∀ (s t : State) (d d' : Decoder) (i : Instr), s.dec? = some d → exec i s = .next t → t.dec? = some d' →
    d.err ≠ .noError → d'.err = .noError → i = .decReset ∨ (i = .decFeed d.lut.eof ∧ d.fsm = .rp))

/-- A second, different error leaves the code ERR_COMBINE says (R151), in each of the three ways one can come: an append
that a full buffer refuses, in RP or in REB, in a frame with a decode error; and a byte in REB that is no escape index, in
a frame with an overflow. The later code stays under LAST_WINS and the earlier one under FIRST_WINS. -/
def Obligations.ErrCombineDecidesSecondError : Prop :=
  (∀ (s : State) (d : Decoder) (b : Byte), s.dec? = some d → d.delivering = false → d.cursor = d.cap →
    d.err = .decodeError →
    ((d.fsm = .rp ∧ b ≠ d.lut.eof ∧ b ≠ d.lut.esc) ∨ (d.fsm = .reb ∧ ∃ m, decLut d.lut b = some m)) →
    ∃ (t : State) (d' : Decoder), exec (.decFeed b) s = .next t ∧ t.dec? = some d' ∧
      (d.errCombine = .lastWins → d'.err = .bufInsufficient) ∧ (d.errCombine = .firstWins → d'.err = .decodeError)) ∧
  (∀ (s : State) (d : Decoder) (b : Byte), s.dec? = some d → d.delivering = false → d.fsm = .reb →
    d.err = .bufInsufficient → decLut d.lut b = none →
    ∃ (t : State) (d' : Decoder), exec (.decFeed b) s = .next t ∧ t.dec? = some d' ∧
      (d.errCombine = .lastWins → d'.err = .decodeError) ∧ (d.errCombine = .firstWins → d'.err = .bufInsufficient))

/-- No error stops a command or changes its response: every FEED to a good instance completes and its last event is ACK
(R149, R154). The decoder's consumer finishes at once (H-A3, log 9). -/
def Obligations.EveryFeedIsAcknowledged : Prop :=
  (∀ (s : State) (e : Encoder) (b : Byte), s.enc? = some e → Encoder.Inv e →
    ∃ (t : State) (e' : Encoder), exec (.encFeed b) s = .next t ∧ t.enc? = some e' ∧ e'.cmd = none ∧
      e'.obs = e.obs ++ [.rsp .ack]) ∧
  (∀ (s : State) (d : Decoder) (b : Byte), s.dec? = some d → Decoder.Inv d → d.delivering = false →
    d.consumer = .prompt →
    ∃ (t : State) (d' : Decoder) (ds : List Event), exec (.decFeed b) s = .next t ∧ t.dec? = some d' ∧
      d'.cmd = none ∧ d'.delivering = false ∧ d'.obs = d.obs ++ ds ++ [.rsp .ack] ∧ ds.length ≤ 1)

/-- Between resets CURSOR only grows (R23, R27): the commands that lower it are ENC.RESET, DEC.RESET and a DEC.FEED of EOF
in RP. -/
def Obligations.CursorOnlyGrowsBetweenResets : Prop :=
  (∀ (s t : State) (e e' : Encoder) (i : Instr), s.enc? = some e → exec i s = .next t → t.enc? = some e' →
    i ≠ .encReset → e.cursor.toNat ≤ e'.cursor.toNat) ∧
  (∀ (s t : State) (d d' : Decoder) (i : Instr), s.dec? = some d → exec i s = .next t → t.dec? = some d' →
    i ≠ .decReset → ¬ (i = .decFeed d.lut.eof ∧ d.fsm = .rp) → d.cursor.toNat ≤ d'.cursor.toNat)

/-- Whatever move is made, every instance keeps its six configuration bytes, its CAP and its ERR_COMBINE (R32, R38, R96,
R173). -/
def Obligations.ConfigurationNeverChanges : Prop :=
  ∀ s t : State, step s = .next t →
    (∀ (k : Nat) (e : Encoder), s.encs[k]? = some e → ∃ e' : Encoder, t.encs[k]? = some e' ∧ e'.lut = e.lut ∧ e'.cap = e.cap ∧
      e'.errCombine = e.errCombine) ∧
    (∀ (k : Nat) (d : Decoder), s.decs[k]? = some d → ∃ d' : Decoder, t.decs[k]? = some d' ∧ d'.lut = d.lut ∧ d'.cap = d.cap ∧
      d'.errCombine = d.errCombine)

/-- A move that concerns one port leaves every other instance as it was (R45, R164). -/
def Obligations.MoveTouchesOnlyItsInstance : Prop :=
  ∀ (s t : State) (m : Move) (ms : List Move) (p : Port), s.sched = m :: ms → m.port? = some p → step s = .next t →
    t.encs.length = s.encs.length ∧ t.decs.length = s.decs.length ∧
    (∀ k, p ≠ .enc k → t.encs[k]? = s.encs[k]?) ∧ (∀ k, p ≠ .dec k → t.decs[k]? = s.decs[k]?)

/-- Moves that concern different instances commute: made in either order they leave every instance the same (R45, R63).
Only the selection the model keeps (log 10) may differ. -/
def Obligations.MovesOfDifferentInstancesCommute : Prop :=
  ∀ (s t : State) (m m' : Move) (ms : List Move) (p p' : Port), m.port? = some p → m'.port? = some p' → p ≠ p' →
    Host.Core.run Sys2Proof.core 2 ({ s with sched := m :: m' :: ms } : State) = .next t →
    ∃ t' : State, Host.Core.run Sys2Proof.core 2 ({ s with sched := m' :: m :: ms } : State) = .next t' ∧
      t'.encs = t.encs ∧ t'.decs = t.decs ∧ t'.sched = t.sched

/-- A host that waits for each response gets exactly one response for each command word it sends, legal or not, in order,
each after at most one delivery, and is never refused (R40, R41, R62, R83). The consumer finishes at once (H-A3, log 9). -/
def Obligations.EveryCommandGetsOneResponse : Prop :=
  ∀ (s : State) (p : Port) (ws : List Word) (ms : List Move) (evs0 : List Event), s.Inv → s.outstanding p = some none →
    s.promptAt p → s.events p = some evs0 →
    ∃ (t : State) (evs : List Event),
      Host.Core.run Sys2Proof.core (2 * ws.length) ({ s with sched := hostMoves p ws ++ ms } : State) = .next t ∧
      t.sched = ms ∧ t.outstanding p = some none ∧ t.events p = some (evs0 ++ evs) ∧ Exchanges ws evs
end

