-- ==== Sys2Proof/Laws/Decode.lean ====
section
/-! SUPPORT. The fields of an assembled command word, and that a word with RSV = 0 is assembled from its fields
(30_encoding.md R74). -/

namespace Sys2Proof

section fields
variable (u n : Bool) (op : BitVec 3) (opnd : BitVec 24)

theorem fieldU_assembleWord : fieldU (assembleWord u op n opnd) = u := by
  simp only [fieldU, assembleWord, BitVec.getLsbD_append]
  simp

theorem fieldN_assembleWord : fieldN (assembleWord u op n opnd) = n := by
  simp only [fieldN, assembleWord, BitVec.getLsbD_append]
  simp

theorem fieldOp_assembleWord : fieldOp (assembleWord u op n opnd) = op := by
  ext i hi
  simp only [fieldOp, assembleWord, BitVec.getElem_extractLsb', BitVec.getLsbD_append]
  have : i = 0 ∨ i = 1 ∨ i = 2 := by omega
  rcases this with rfl | rfl | rfl <;> simp

theorem fieldRsv_assembleWord : fieldRsv (assembleWord u op n opnd) = 0#3 := by
  ext i hi
  simp only [fieldRsv, assembleWord, BitVec.getElem_extractLsb', BitVec.getLsbD_append]
  have : i = 0 ∨ i = 1 ∨ i = 2 := by omega
  rcases this with rfl | rfl | rfl <;> simp

theorem fieldOpnd_assembleWord : fieldOpnd (assembleWord u op n opnd) = opnd := by
  ext i hi
  simp only [fieldOpnd, assembleWord, BitVec.getElem_extractLsb', BitVec.getLsbD_append]
  simp [hi, show i < 27 by omega]

end fields

theorem opndHigh_opndOfByte (b : Byte) : opndHigh (opndOfByte b) = 0#16 := by
  ext i hi
  simp only [opndHigh, opndOfByte, BitVec.getElem_extractLsb', BitVec.getLsbD_append]
  simp

theorem opndByte_opndOfByte (b : Byte) : opndByte (opndOfByte b) = b := by
  ext i hi
  simp only [opndByte, opndOfByte, BitVec.getElem_extractLsb', BitVec.getLsbD_append]
  simp [hi]

/-- An operand field with zeros above bit 7 is that of its byte. -/
theorem opndOfByte_opndByte {o : BitVec 24} (h : opndHigh o = 0#16) : opndOfByte (opndByte o) = o := by
  refine BitVec.eq_of_getLsbD_eq fun i hi => ?_
  simp only [opndOfByte, opndByte, BitVec.getLsbD_append]
  by_cases hlt : i < 8
  · simp [hlt]
  · have := congrArg (·.getLsbD (i - 8)) h
    simp [opndHigh, show 8 + (i - 8) = i by omega, show i - 8 < 16 by omega] at this
    simp [hlt, this]

/-- A word with RSV = 0 is the one assembled from its fields. -/
theorem eq_assembleWord_fields {w : Word} (h : fieldRsv w = 0#3) :
    w = assembleWord (fieldU w) (fieldOp w) (fieldN w) (fieldOpnd w) := by
  have h0 : w.getLsbD 24 = false := by simpa [fieldRsv] using congrArg (·.getLsbD 0) h
  have h1 : w.getLsbD 25 = false := by simpa [fieldRsv] using congrArg (·.getLsbD 1) h
  have h2 : w.getLsbD 26 = false := by simpa [fieldRsv] using congrArg (·.getLsbD 2) h
  refine BitVec.eq_of_getLsbD_eq fun i hi => ?_
  simp only [fieldU, fieldOp, fieldN, fieldOpnd, assembleWord, BitVec.getLsbD_append]
  by_cases hlt : i < 24
  · simp [hlt, show i < 27 by omega]
  · have : i = 24 ∨ i = 25 ∨ i = 26 ∨ i = 27 ∨ i = 28 ∨ i = 29 ∨ i = 30 ∨ i = 31 := by omega
    rcases this with rfl | rfl | rfl | rfl | rfl | rfl | rfl | rfl <;> simp_all

end Sys2Proof
end

