-- ==== Sys2Proof/Laws/Memory.lean ====
section
/-! SUPPORT. The laws of a buffer: read after write, and that a write keeps the canonical form. -/

namespace Sys2Proof.Machine

@[simp] theorem Memory.read_nil (a : Nat) : Memory.read [] a = none := rfl

theorem Memory.read_write_same (m : Memory) (a : Nat) (v : Byte) :
    Memory.read (Memory.write m a v) a = some v := by
  induction m with
  | nil => simp [Memory.write, Memory.read]
  | cons c m ih =>
    unfold Memory.write
    split
    · simp [Memory.read]
    · split
      · simp [Memory.read]
      · simp [Memory.read, *]

theorem Memory.read_write_other (m : Memory) {a b : Nat} (v : Byte) (h : b ≠ a) :
    Memory.read (Memory.write m a v) b = Memory.read m b := by
  induction m with
  | nil => simp [Memory.write, Memory.read, Ne.symm h]
  | cons c m ih =>
    unfold Memory.write
    split
    · simp [Memory.read, Ne.symm h]
    · split
      · simp_all [Memory.read, Ne.symm h]
      · simp [Memory.read, ih]

/-- A read after a write, at any address. -/
theorem Memory.read_write (m : Memory) (a b : Nat) (v : Byte) :
    Memory.read (Memory.write m a v) b = if b = a then some v else Memory.read m b := by
  split
  · next h => subst h; exact Memory.read_write_same m b v
  · next h => exact Memory.read_write_other m v h

theorem Memory.risesAbove_write (m : Memory) {a b : Nat} (v : Byte) (hab : b < a) (h : Memory.risesAbove b m = true) :
    Memory.risesAbove b (Memory.write m a v) = true := by
  induction m generalizing b with
  | nil => simp [Memory.write, Memory.risesAbove, hab]
  | cons c m ih =>
    simp only [Memory.risesAbove, Bool.and_eq_true, decide_eq_true_eq] at h
    unfold Memory.write
    split
    · simp_all [Memory.risesAbove]
    · split
      · simp_all [Memory.risesAbove]
      · simp only [Memory.risesAbove, Bool.and_eq_true, decide_eq_true_eq]
        exact ⟨h.1, ih (by omega) h.2⟩

/-- The only write of a buffer keeps its canonical form. -/
theorem Memory.write_keeps_wf (m : Memory) (a : Nat) (v : Byte) (h : Memory.wf m = true) :
    Memory.wf (Memory.write m a v) = true := by
  cases m with
  | nil => rfl
  | cons c m =>
    simp only [Memory.wf] at h
    unfold Memory.write
    split
    · simp_all [Memory.wf, Memory.risesAbove]
    · split
      · simp_all [Memory.wf]
      · exact Memory.risesAbove_write m v (by omega) h

/-- A write adds at most its own cell. -/
theorem Memory.mem_write {m : Memory} {a : Nat} {v : Byte} {c : Host.Cell} (h : c ∈ Memory.write m a v) :
    c = (a, v) ∨ c ∈ m := by
  induction m with
  | nil => simpa [Memory.write] using h
  | cons c0 m ih =>
    unfold Memory.write at h
    split at h
    · simpa using h
    · split at h
      · simp only [List.mem_cons] at h ⊢
        exact h.imp id .inr
      · simp only [List.mem_cons] at h ⊢
        exact h.elim (fun h => .inr (.inl h)) fun h => (ih h).imp id .inr

@[simp] theorem Memory.wf_nil : Memory.wf [] = true := rfl

/-- Bytes that all have a value can be read. -/
theorem Memory.readN_isSome {m : Memory} {n : Nat} : ∀ {a : Nat},
    (∀ b, a ≤ b → b < a + n → (Memory.read m b).isSome = true) → ∃ vs, Memory.readN m a n = some vs := by
  induction n with
  | zero => intro a _; exact ⟨[], rfl⟩
  | succ n ih =>
    intro a h
    obtain ⟨v, hv⟩ := Option.isSome_iff_exists.mp (h a (by omega) (by omega))
    obtain ⟨vs, hvs⟩ := ih (a := a + 1) fun b hb hb' => h b (by omega) (by omega)
    exact ⟨v :: vs, by simp [Memory.readN, hv, hvs]⟩

/-- A read of n bytes gives n bytes. -/
theorem Memory.readN_length {m : Memory} {n : Nat} : ∀ {a : Nat} {vs : List Byte},
    Memory.readN m a n = some vs → vs.length = n := by
  induction n with
  | zero => intro a vs h; simp [Memory.readN] at h; simp [h]
  | succ n ih =>
    intro a vs h
    simp only [Memory.readN] at h
    split at h
    · next hvs => cases h; simp [ih hvs]
    · cases h

/-- The bytes read depend only on the addresses read. -/
theorem Memory.readN_congr {m m' : Memory} {n : Nat} : ∀ {a : Nat},
    (∀ b, a ≤ b → b < a + n → Memory.read m b = Memory.read m' b) → Memory.readN m a n = Memory.readN m' a n := by
  induction n with
  | zero => intro a _; rfl
  | succ n ih =>
    intro a h
    simp only [Memory.readN]
    rw [h a (by omega) (by omega), ih (a := a + 1) fun b hb hb' => h b (by omega) (by omega)]

/-- One more byte at the end. -/
theorem Memory.readN_snoc {m : Memory} {n : Nat} : ∀ {a : Nat} {vs : List Byte} {v : Byte},
    Memory.readN m a n = some vs → Memory.read m (a + n) = some v → Memory.readN m a (n + 1) = some (vs ++ [v]) := by
  induction n with
  | zero =>
    intro a vs v h hv
    simp only [Memory.readN, Option.some.injEq] at h
    subst h
    simp only [Nat.add_zero] at hv
    simp [Memory.readN, hv]
  | succ n ih =>
    intro a vs v h hv
    rw [Memory.readN] at h
    split at h
    · next v0 vs0 h0 hvs0 =>
      cases h
      have hlast := ih hvs0 (by rwa [Nat.add_right_comm] : Memory.read m (a + 1 + n) = some v)
      rw [Memory.readN]
      simp [h0, hlast]
    · cases h

end Sys2Proof.Machine
end

