-- ==== Sys2Proof/Laws/State.lean ====
section
/-! SUPPORT. One lemma for each field under each update of an instance, a decoder and the state, so that no proof unfolds
a record update. -/

namespace Sys2Proof.Machine

section raise
variable (u : Inst) (c : ErrCode)
@[simp] theorem Inst.raise_buf : (u.raise c).buf = u.buf := rfl
@[simp] theorem Inst.raise_cursor : (u.raise c).cursor = u.cursor := rfl
@[simp] theorem Inst.raise_err : (u.raise c).err = combineErr u.errCombine u.err c := rfl
@[simp] theorem Inst.raise_lut : (u.raise c).lut = u.lut := rfl
@[simp] theorem Inst.raise_cap : (u.raise c).cap = u.cap := rfl
@[simp] theorem Inst.raise_errCombine : (u.raise c).errCombine = u.errCombine := rfl
@[simp] theorem Inst.raise_cmd : (u.raise c).cmd = u.cmd := rfl
@[simp] theorem Inst.raise_obs : (u.raise c).obs = u.obs := rfl
end raise

section clear
variable (u : Inst)
@[simp] theorem Inst.clear_buf : u.clear.buf = u.buf := rfl
@[simp] theorem Inst.clear_cursor : u.clear.cursor = 0#24 := rfl
@[simp] theorem Inst.clear_err : u.clear.err = .noError := rfl
@[simp] theorem Inst.clear_lut : u.clear.lut = u.lut := rfl
@[simp] theorem Inst.clear_cap : u.clear.cap = u.cap := rfl
@[simp] theorem Inst.clear_errCombine : u.clear.errCombine = u.errCombine := rfl
@[simp] theorem Inst.clear_cmd : u.clear.cmd = u.cmd := rfl
@[simp] theorem Inst.clear_obs : u.clear.obs = u.obs := rfl
end clear

section respond
variable (u : Inst) (r : Response)
@[simp] theorem Inst.respond_buf : (u.respond r).buf = u.buf := rfl
@[simp] theorem Inst.respond_cursor : (u.respond r).cursor = u.cursor := rfl
@[simp] theorem Inst.respond_err : (u.respond r).err = u.err := rfl
@[simp] theorem Inst.respond_lut : (u.respond r).lut = u.lut := rfl
@[simp] theorem Inst.respond_cap : (u.respond r).cap = u.cap := rfl
@[simp] theorem Inst.respond_errCombine : (u.respond r).errCombine = u.errCombine := rfl
@[simp] theorem Inst.respond_cmd : (u.respond r).cmd = none := rfl
@[simp] theorem Inst.respond_obs : (u.respond r).obs = u.obs ++ [.rsp r] := rfl
end respond

section deliver
variable (u : Inst) (bs : List Byte) (len : Count) (err : ErrCode)
@[simp] theorem Inst.deliver_buf : (u.deliver bs len err).buf = u.buf := rfl
@[simp] theorem Inst.deliver_cursor : (u.deliver bs len err).cursor = u.cursor := rfl
@[simp] theorem Inst.deliver_err : (u.deliver bs len err).err = u.err := rfl
@[simp] theorem Inst.deliver_lut : (u.deliver bs len err).lut = u.lut := rfl
@[simp] theorem Inst.deliver_cap : (u.deliver bs len err).cap = u.cap := rfl
@[simp] theorem Inst.deliver_errCombine : (u.deliver bs len err).errCombine = u.errCombine := rfl
@[simp] theorem Inst.deliver_cmd : (u.deliver bs len err).cmd = u.cmd := rfl
@[simp] theorem Inst.deliver_obs : (u.deliver bs len err).obs = u.obs ++ [.dlv bs len err] := rfl
end deliver

section take
variable (u : Inst) (w : Word)
@[simp] theorem Inst.take_buf : (u.take w).buf = u.buf := rfl
@[simp] theorem Inst.take_cursor : (u.take w).cursor = u.cursor := rfl
@[simp] theorem Inst.take_err : (u.take w).err = u.err := rfl
@[simp] theorem Inst.take_lut : (u.take w).lut = u.lut := rfl
@[simp] theorem Inst.take_cap : (u.take w).cap = u.cap := rfl
@[simp] theorem Inst.take_errCombine : (u.take w).errCombine = u.errCombine := rfl
@[simp] theorem Inst.take_cmd : (u.take w).cmd = u.cmd := rfl
@[simp] theorem Inst.take_obs : (u.take w).obs = u.obs ++ [.cmd w] := rfl
end take

section decoder
variable (d : Decoder) (r : Response)
@[simp] theorem Decoder.respond_toInst : (d.respond r).toInst = d.toInst.respond r := rfl
@[simp] theorem Decoder.respond_fsm : (d.respond r).fsm = d.fsm := rfl
@[simp] theorem Decoder.respond_cbEn : (d.respond r).cbEn = d.cbEn := rfl
@[simp] theorem Decoder.respond_consumer : (d.respond r).consumer = d.consumer := rfl
@[simp] theorem Decoder.respond_delivering : (d.respond r).delivering = d.delivering := rfl
@[simp] theorem Decoder.clear_toInst : d.clear.toInst = d.toInst.clear := rfl
@[simp] theorem Decoder.clear_fsm : d.clear.fsm = .sfs := rfl
@[simp] theorem Decoder.clear_cbEn : d.clear.cbEn = d.cbEn := rfl
@[simp] theorem Decoder.clear_consumer : d.clear.consumer = d.consumer := rfl
@[simp] theorem Decoder.clear_delivering : d.clear.delivering = d.delivering := rfl
end decoder

section state
variable (s : State) (e : Encoder) (d : Decoder)
@[simp] theorem State.setEnc_encs : (s.setEnc e).encs = s.encs.set s.sel e := rfl
@[simp] theorem State.setEnc_decs : (s.setEnc e).decs = s.decs := rfl
@[simp] theorem State.setEnc_sel : (s.setEnc e).sel = s.sel := rfl
@[simp] theorem State.setEnc_sched : (s.setEnc e).sched = s.sched := rfl
@[simp] theorem State.setDec_encs : (s.setDec d).encs = s.encs := rfl
@[simp] theorem State.setDec_decs : (s.setDec d).decs = s.decs.set s.sel d := rfl
@[simp] theorem State.setDec_sel : (s.setDec d).sel = s.sel := rfl
@[simp] theorem State.setDec_sched : (s.setDec d).sched = s.sched := rfl
@[simp] theorem State.setEnc_dec? : (s.setEnc e).dec? = s.dec? := rfl
@[simp] theorem State.setDec_enc? : (s.setDec d).enc? = s.enc? := rfl

/-- The encoder just put at the selected place is the one found there. -/
theorem State.setEnc_enc? {s : State} {e0 : Encoder} (h : s.enc? = some e0) (e : Encoder) :
    (s.setEnc e).enc? = some e := by
  obtain ⟨hlt, -⟩ := List.getElem?_eq_some_iff.mp h
  simp [State.enc?, hlt]

/-- The decoder just put at the selected place is the one found there. -/
theorem State.setDec_dec? {s : State} {d0 : Decoder} (h : s.dec? = some d0) (d : Decoder) :
    (s.setDec d).dec? = some d := by
  obtain ⟨hlt, -⟩ := List.getElem?_eq_some_iff.mp h
  simp [State.dec?, hlt]

/-- Putting back the encoder found changes nothing. -/
theorem State.setEnc_self {s : State} {e : Encoder} (h : s.enc? = some e) : s.setEnc e = s := by
  obtain ⟨hlt, rfl⟩ := List.getElem?_eq_some_iff.mp h
  simp [State.setEnc]

/-- Putting back the decoder found changes nothing. -/
theorem State.setDec_self {s : State} {d : Decoder} (h : s.dec? = some d) : s.setDec d = s := by
  obtain ⟨hlt, rfl⟩ := List.getElem?_eq_some_iff.mp h
  simp [State.setDec]

@[simp] theorem State.setEnc_setEnc (e' : Encoder) : (s.setEnc e).setEnc e' = s.setEnc e' := by
  simp [State.setEnc]

@[simp] theorem State.setDec_setDec (d' : Decoder) : (s.setDec d).setDec d' = s.setDec d' := by
  simp [State.setDec]
end state

end Sys2Proof.Machine
end

