-- ==== Sys2Proof/Laws/Ops.lean ====
section
/-! SUPPORT. For each shared operation, once, everything it can do; and that the operations keep the invariants' parts. -/

namespace Sys2Proof.Machine

/-- Changing an element that is there is setting it. -/
theorem modify_of_getElem? {α : Type} {l : List α} {k : Nat} {a : α} (f : α → α) (h : l[k]? = some a) :
    l.modify k f = l.set k (f a) := by
  obtain ⟨hlt, rfl⟩ := List.getElem?_eq_some_iff.mp h
  apply List.ext_getElem?
  intro j
  rw [List.getElem?_modify, List.getElem?_set]
  by_cases hk : k = j
  · subst hk; simp [hlt]
  · simp [hk]

/-- Raising the same error twice is raising it once. -/
theorem combineErr_idem (m : ErrCombine) (old new : ErrCode) :
    combineErr m (combineErr m old new) new = combineErr m old new := by
  cases m <;> cases old <;> cases new <;> rfl

/-- Everything Append can do when it completes: refused on a full buffer, or one byte written at CURSOR. -/
theorem Inst.append_cases {u u' : Inst} {v : Byte} (h : u.append v = .ok u') :
    (u.cursor = u.cap ∧ u' = u.raise .bufInsufficient) ∨
    (u.cursor.toNat < u.cap.toNat ∧
      u' = { u with buf := Memory.write u.buf u.cursor.toNat v, cursor := u.cursor + 1#24 }) := by
  unfold Inst.append Inst.memWrite at h
  split at h
  · exact .inl ⟨‹_›, by simpa using h.symm⟩
  · split at h
    · next hm =>
      split at hm
      · cases hm; exact .inr ⟨‹_›, by simpa using h.symm⟩
      · cases hm
    · cases h

/-- Append on a full buffer. -/
theorem Inst.append_full {u : Inst} (v : Byte) (h : u.cursor = u.cap) : u.append v = .ok (u.raise .bufInsufficient) := by
  simp [Inst.append, h]

/-- Append with room. -/
theorem Inst.append_room {u : Inst} (v : Byte) (h : u.cursor.toNat < u.cap.toNat) :
    u.append v = .ok { u with buf := Memory.write u.buf u.cursor.toNat v, cursor := u.cursor + 1#24 } := by
  have hne : u.cursor ≠ u.cap := fun he => by simp [he] at h
  simp [Inst.append, Inst.memWrite, hne, h]

/-- CURSOR + 1 does not wrap below CAP (R36). -/
theorem Inst.cursor_succ {u : Inst} (h : u.cursor.toNat < u.cap.toNat) :
    (u.cursor + 1#24).toNat = u.cursor.toNat + 1 := by
  have := u.cap.isLt
  rw [BitVec.toNat_add]
  simp only [BitVec.toNat_ofNat]
  omega

/-- Append completes whenever CURSOR is at most CAP. -/
theorem Inst.append_completes {u : Inst} (v : Byte) (h : u.cursor.toNat ≤ u.cap.toNat) : ∃ u', u.append v = .ok u' := by
  by_cases hc : u.cursor = u.cap
  · exact ⟨_, Inst.append_full v hc⟩
  · exact ⟨_, Inst.append_room v (by
      have : u.cursor.toNat ≠ u.cap.toNat := fun he => hc (BitVec.eq_of_toNat_eq he)
      omega)⟩

/-- Append keeps a good instance good. -/
theorem Inst.append_keeps_inv {u u' : Inst} {v : Byte} (hi : u.Inv) (h : u.append v = .ok u') : u'.Inv := by
  obtain ⟨-, rfl⟩ | ⟨hlt, rfl⟩ := Inst.append_cases h
  · exact { hi with }
  · exact
      { capPos := hi.capPos
        capMax := hi.capMax
        cursorCap := by simp only [Inst.cursor_succ hlt]; omega
        bufWf := Memory.write_keeps_wf _ _ _ hi.bufWf
        bufInside := fun c hc => (Memory.mem_write hc).elim (fun h => by subst h; exact hlt) (hi.bufInside c)
        bufWritten := fun a ha => by
          simp only [Inst.cursor_succ hlt] at ha
          simp only [Memory.read_write]
          split
          · rfl
          · exact hi.bufWritten a (by omega) }

/-- A good instance can read all it has written. -/
theorem Inst.memRead_completes {u : Inst} (hi : u.Inv) :
    ∃ vs, u.memRead 0 u.cursor.toNat = .ok vs ∧ vs.length = u.cursor.toNat := by
  obtain ⟨vs, hvs⟩ := Memory.readN_isSome (m := u.buf) (n := u.cursor.toNat) (a := 0)
    fun b _ hb => hi.bufWritten b (by omega)
  exact ⟨vs, by simp [Inst.memRead, hvs], Memory.readN_length hvs⟩

/-- Everything an encoder command can do when it answers a next state. -/
theorem onEncoder_next {s t : State} {f : Encoder → Except Fault Encoder} (h : onEncoder s f = .next t) :
    ∃ e e', s.enc? = some e ∧ f e = .ok e' ∧ t = s.setEnc e' := by
  unfold onEncoder at h
  split at h
  · cases h
  · next e he =>
    split at h
    · next e' hf => exact ⟨e, e', he, hf, by cases h; rfl⟩
    · cases h

/-- An encoder command whose function completes answers a next state. -/
theorem onEncoder_ok {s : State} {f : Encoder → Except Fault Encoder} {e e' : Encoder}
    (he : s.enc? = some e) (hf : f e = .ok e') : onEncoder s f = .next (s.setEnc e') := by
  simp [onEncoder, he, hf]

/-- Everything a decoder command can do when it answers a next state. -/
theorem onDecoder_next {s t : State} {f : Decoder → Except Fault Decoder} (h : onDecoder s f = .next t) :
    ∃ d d', s.dec? = some d ∧ d.delivering = false ∧ f d = .ok d' ∧ t = s.setDec d' := by
  unfold onDecoder at h
  split at h
  · cases h
  · next d hd =>
    split at h
    · cases h
    · next hn =>
      split at h
      · next d' hf => exact ⟨d, d', hd, by simpa using hn, hf, by cases h; rfl⟩
      · cases h

/-- A decoder command whose function completes, with no delivery in progress, answers a next state. -/
theorem onDecoder_ok {s : State} {f : Decoder → Except Fault Decoder} {d d' : Decoder}
    (hd : s.dec? = some d) (hn : d.delivering = false) (hf : f d = .ok d') : onDecoder s f = .next (s.setDec d') := by
  simp [onDecoder, hd, hn, hf]

/-- What a decoder's Append can do is what its instance's Append can do. -/
theorem Decoder.append_ok {d d' : Decoder} {v : Byte} (h : d.append v = .ok d') :
    ∃ u, d.toInst.append v = .ok u ∧ d' = { d with toInst := u } := by
  unfold Decoder.append at h
  split at h
  · next u hu => exact ⟨u, hu, by simpa using h.symm⟩
  · cases h

theorem Decoder.append_of_ok {d : Decoder} {u : Inst} {v : Byte} (h : d.toInst.append v = .ok u) :
    d.append v = .ok { d with toInst := u } := by
  simp [Decoder.append, h]

end Sys2Proof.Machine
end

