-- ==== Sys2Proof/Laws/PerInstr.lean ====
section
/-! SUPPORT. The family UnitBit: the word of every command carries its unit in bit 31 (30_encoding.md R74, R75). -/

namespace Sys2Proof.Laws.UnitBit

/-- Field U of a command's word is the bit of its unit. -/
def Statement (i : Instr) : Prop := fieldU (encode i) = i.unit.bit

theorem encFeed (b : Byte) : Statement (.encFeed b) := Sys2Proof.fieldU_assembleWord _ _ _ _
theorem encReset : Statement .encReset := Sys2Proof.fieldU_assembleWord _ _ _ _
theorem encSize : Statement .encSize := Sys2Proof.fieldU_assembleWord _ _ _ _
theorem encGetresult (null : Bool) (dcap : Count) : Statement (.encGetresult null dcap) := Sys2Proof.fieldU_assembleWord _ _ _ _
theorem encStatus : Statement .encStatus := Sys2Proof.fieldU_assembleWord _ _ _ _
theorem decFeed (b : Byte) : Statement (.decFeed b) := Sys2Proof.fieldU_assembleWord _ _ _ _
theorem decReset : Statement .decReset := Sys2Proof.fieldU_assembleWord _ _ _ _
theorem decSetcb (off : Bool) : Statement (.decSetcb off) := Sys2Proof.fieldU_assembleWord _ _ _ _
theorem decStatus : Statement .decStatus := Sys2Proof.fieldU_assembleWord _ _ _ _

end Sys2Proof.Laws.UnitBit
end

