-- ==== Sys2Proof/Tests/Slice0.lean ====
section
/-! SUPPORT. The author's tests: well-formedness, decoding of words written out from 30_encoding.md, single steps with the
expected results of 95_test_vectors.md, and for each statement of Certificates/Slice0 with hypotheses a concrete state and
operands that meet them all. -/

namespace Sys2Proof.Tests

open Sys2Proof Sys2Proof.Machine

/-! ## Well-formedness -/

theorem test_wf_refuses_encoder_command_on_decoder_port : Instr.wf .dec (.encFeed 0x41#8) = false := by decide
theorem test_wf_refuses_decoder_command_on_encoder_port : Instr.wf .enc (.decFeed 0x41#8) = false := by decide
theorem test_wf_accepts_command_on_its_port : Instr.wf .dec (.decSetcb true) = true := by decide
theorem test_wf_refuses_cap_zero : ElabParams.wf { cap := 0, lut := Lut.default, errCombine := .lastWins } = false := by decide
theorem test_wf_refuses_cap_too_big :
    ElabParams.wf { cap := 16777214, lut := Lut.default, errCombine := .lastWins } = false := by decide
theorem test_wf_accepts_smallest_and_greatest_cap :
    ElabParams.wf { cap := 1, lut := Lut.default, errCombine := .lastWins } = true ∧
    ElabParams.wf { cap := 16777213, lut := Lut.default, errCombine := .firstWins } = true := by decide

/-! ## Decoding: words written out bit by bit from R74, R80, R81 (U, OP, N, RSV, OPND), and rows of R90 and L2.H -/

theorem test_decode_encFeed : decode .enc 0b0_000_0_000_0000000000000000_01111101#32 = some (.encFeed 0x7D#8) := by decide
theorem test_decode_encReset : decode .enc 0b0_001_0_000_000000000000000000000000#32 = some .encReset := by decide
theorem test_decode_encSize : decode .enc 0b0_010_0_000_000000000000000000000000#32 = some .encSize := by decide
theorem test_decode_encGetresult :
    decode .enc 0b0_011_0_000_000000000000000000010000#32 = some (.encGetresult false 16#24) := by decide
theorem test_decode_encGetresult_null :
    decode .enc 0b0_011_1_000_000000000000000000000000#32 = some (.encGetresult true 0#24) := by decide
theorem test_decode_encStatus : decode .enc 0b0_100_0_000_000000000000000000000000#32 = some .encStatus := by decide
theorem test_decode_decFeed : decode .dec 0b1_000_0_000_0000000000000000_11111111#32 = some (.decFeed 0xFF#8) := by decide
theorem test_decode_decReset : decode .dec 0b1_001_0_000_000000000000000000000000#32 = some .decReset := by decide
theorem test_decode_decSetcb_on : decode .dec 0b1_010_0_000_000000000000000000000000#32 = some (.decSetcb false) := by decide
theorem test_decode_decSetcb_off : decode .dec 0b1_010_1_000_000000000000000000000000#32 = some (.decSetcb true) := by decide
theorem test_decode_decStatus : decode .dec 0b1_100_0_000_000000000000000000000000#32 = some .decStatus := by decide
theorem test_decode_greatest_dcap : decode .enc 0x30FFFFFF#32 = some (.encGetresult false 0xFFFFFF#24) := by decide
theorem test_decode_illegal_words :
    decode .dec 0x00000041#32 = none ∧ decode .dec 0xD0000000#32 = none ∧ decode .dec 0xC8000000#32 = none ∧
    decode .enc 0x40000001#32 = none := by decide
theorem test_decodeTableWord :
    decodeTableWord 32 0x00000041 = some (.encFeed 0x41#8) ∧ decodeTableWord 32 0xA8000000 = some (.decSetcb true) ∧
    decodeTableWord 32 0x50000000 = none := by decide

/-! ## Lookups (L2.A) and error codes (R150) -/

/-- The first other configuration of L2.A. -/
def otherLut : Lut := { sof := 0x10#8, eof := 0x11#8, esc := 0x12#8, idx0 := 0xA0#8, idx1 := 0xA1#8, idx2 := 0xA2#8 }

theorem test_lut_other_configuration :
    encLut otherLut 0x11#8 = some 0xA1#8 ∧ encLut otherLut 0x7D#8 = none ∧ decLut otherLut 0xA2#8 = some 0x12#8 ∧
    decLut otherLut 0x00#8 = none := by decide
theorem test_lut_first_match_wins :
    encLut { Lut.default with sof := 0x10#8, eof := 0x10#8, esc := 0x12#8 } 0x10#8 = some 0x00#8 ∧
    decLut { Lut.default with idx1 := 0x00#8 } 0x00#8 = some 0x7D#8 := by decide
theorem test_errCombine :
    combineErr .lastWins .decodeError .bufInsufficient = .bufInsufficient ∧
    combineErr .firstWins .decodeError .bufInsufficient = .decodeError ∧
    combineErr .firstWins .noError .decodeError = .decodeError := by decide

/-! ## Small states -/

/-- The cells of bytes at addresses 0, 1, 2, ... -/
def cells (bs : List Byte) : Memory := bs.zipIdx.map fun p => (p.2, p.1)

/-- An encoder that has buffered some bytes. -/
def enc (cap : Count) (bs : List Byte) (err : ErrCode) : Encoder :=
  { buf := cells bs, cursor := BitVec.ofNat 24 bs.length, err := err, lut := Lut.default, cap := cap
    errCombine := .lastWins, cmd := none, obs := [] }

/-- A decoder that has buffered some bytes. -/
def dec (fsm : Fsm) (cap : Count) (bs : List Byte) (err : ErrCode) (cbEn : Bool) : Decoder :=
  { toInst := enc cap bs err, fsm := fsm, cbEn := cbEn, consumer := .prompt, delivering := false }

/-- A state with one encoder. -/
def encState (e : Encoder) : State := { encs := [e], decs := [], sel := 0, sched := [] }

/-- A state with one decoder. -/
def decState (d : Decoder) : State := { encs := [], decs := [d], sel := 0, sched := [] }

/-- The only encoder after a step that answers a next state. -/
def encAfter (o : Host.Outcome State Fault Refusal) : Option Encoder :=
  match o with
  | .next s => s.encs[0]?
  | .fault _ => none
  | .refused _ => none

/-- The only decoder after a step that answers a next state. -/
def decAfter (o : Host.Outcome State Fault Refusal) : Option Decoder :=
  match o with
  | .next s => s.decs[0]?
  | .fault _ => none
  | .refused _ => none

/-- The encoder after the word w is run on it. -/
def runEnc (e : Encoder) (w : Nat) : Option Encoder := encAfter (step ((encState e).withFetchWord 32 w))

/-- The decoder after the word w is run on it. -/
def runDec (d : Decoder) (w : Nat) : Option Decoder := decAfter (step ((decState d).withFetchWord 32 w))

/-! ## Single steps, with the results of 95_test_vectors.md -/

/-- L2.B: CAP 2, [0x41], 0x7D leaves [0x41, 0x7F] with ERR 01. -/
theorem test_encFeed_partial_escape :
    runEnc (enc 2#24 [0x41#8] .noError) 0x0000007D =
      some { enc 2#24 [0x41#8, 0x7F#8] .bufInsufficient with obs := [.cmd 0x0000007D#32, .rsp .ack] } := by decide
/-- L2.B: CAP 3, [0x41], 0x7D is an exact fit. -/
theorem test_encFeed_exact_fit :
    runEnc (enc 3#24 [0x41#8] .noError) 0x0000007D =
      some { enc 3#24 [0x41#8, 0x7F#8, 0x00#8] .noError with obs := [.cmd 0x0000007D#32, .rsp .ack] } := by decide
/-- L2.C: C = 5, ERR 01 becomes C = 0, ERR 00. -/
theorem test_encReset :
    (runEnc (enc 5#24 [1#8, 2#8, 3#8, 4#8, 5#8] .bufInsufficient) 0x10000000).map (fun e => (e.cursor, e.err, e.cap)) =
      some (0#24, .noError, 5#24) := by decide
/-- L2.C: C = CAP = 2^24 - 3 gives VALUE(0x00FFFFFF). -/
theorem test_encSize_greatest :
    (runEnc { enc 16777213#24 [] .noError with cursor := 16777213#24 } 0x20000000).map (fun e => e.obs) =
      some [.cmd 0x20000000#32, .rsp (.value 0x00FFFFFF#32)] := by decide
/-- L2.C: C = 4, ERR 01, CAP 4 gives VALUE(6). -/
theorem test_encSize_after_overflow :
    (runEnc (enc 4#24 [0x55#8, 0x66#8, 0x88#8, 0x99#8] .bufInsufficient) 0x20000000).map (fun e => e.obs) =
      some [.cmd 0x20000000#32, .rsp (.value 6#32)] := by decide
/-- L2.D: enc.getresult 5 gives the first five bytes, without EOF. -/
theorem test_encGetresult_truncated :
    (runEnc (enc 4#24 [0x55#8, 0x66#8, 0x88#8, 0x99#8] .noError) 0x30000005).map (fun e => e.obs) =
      some [.cmd 0x30000005#32, .rsp (.data 5#24 [0x7D#8, 0x55#8, 0x66#8, 0x88#8, 0x99#8])] := by decide
/-- L2.D: enc.getresult 100 gives the whole frame image. -/
theorem test_encGetresult_whole :
    (runEnc (enc 4#24 [0x55#8, 0x66#8, 0x88#8, 0x99#8] .noError) 0x30000064).map (fun e => e.obs) =
      some [.cmd 0x30000064#32, .rsp (.data 6#24 [0x7D#8, 0x55#8, 0x66#8, 0x88#8, 0x99#8, 0x7E#8])] := by decide
/-- L2.E: C = 4, ERR 01 gives VALUE(0x00000401). -/
theorem test_encStatus :
    (runEnc (enc 4#24 [0x55#8, 0x66#8, 0x88#8, 0x99#8] .bufInsufficient) 0x40000000).map (fun e => e.obs) =
      some [.cmd 0x40000000#32, .rsp (.value 0x00000401#32)] := by decide
/-- L2.F, row 3: the delivery carries ERR 10, and ERR is 00 after. -/
theorem test_decFeed_eof_delivers :
    (runDec (dec .rp 4#24 [0x41#8] .decodeError true) 0x8000007E).map (fun d => (d.fsm, d.cursor, d.err, d.obs)) =
      some (.sfs, 0#24, .noError, [.cmd 0x8000007E#32, .dlv [0x41#8] 1#24 .decodeError, .rsp .ack]) := by decide
/-- L2.F, row 9: EOF after ESC does not end the frame. -/
theorem test_decFeed_eof_after_esc :
    runDec (dec .reb 4#24 [0x41#8] .noError true) 0x8000007E =
      some { dec .rp 4#24 [0x41#8] .decodeError true with obs := [.cmd 0x8000007E#32, .rsp .ack] } := by decide
/-- L2.G: REB, 3, 10, 1 becomes SFS, 0, 00, 1. -/
theorem test_decReset :
    (runDec (dec .reb 4#24 [1#8, 2#8, 3#8] .decodeError true) 0x90000000).map (fun d => (d.fsm, d.cursor, d.err, d.cbEn)) =
      some (.sfs, 0#24, .noError, true) := by decide
/-- L2.G: dec.setcb on. -/
theorem test_decSetcb_on :
    runDec (dec .rp 4#24 [1#8, 2#8] .noError false) 0xA0000000 =
      some { dec .rp 4#24 [1#8, 2#8] .noError true with obs := [.cmd 0xA0000000#32, .rsp .ack] } := by decide
/-- L2.G: dec.setcb off. -/
theorem test_decSetcb_off :
    runDec (dec .rp 4#24 [1#8, 2#8] .noError true) 0xA8000000 =
      some { dec .rp 4#24 [1#8, 2#8] .noError false with obs := [.cmd 0xA8000000#32, .rsp .ack] } := by decide
/-- L2.G: REB, 1, 10, 1 gives VALUE(0x0000011A). -/
theorem test_decStatus_escaped :
    (runDec (dec .reb 4#24 [1#8] .decodeError true) 0xC0000000).map (fun d => d.obs) =
      some [.cmd 0xC0000000#32, .rsp (.value 0x0000011A#32)] := by decide
/-- L2.G: RP, 2, 00, 1 gives VALUE(0x00000214). -/
theorem test_decStatus_payload :
    (runDec (dec .rp 4#24 [1#8, 2#8] .noError true) 0xC0000000).map (fun d => d.obs) =
      some [.cmd 0xC0000000#32, .rsp (.value 0x00000214#32)] := by decide
/-- L2.H: an illegal word, C = 2, ERR 01, leaves both. -/
theorem test_illegal_word :
    runEnc (enc 2#24 [0x55#8, 0x7F#8] .bufInsufficient) 0x50000000 =
      some { enc 2#24 [0x55#8, 0x7F#8] .bufInsufficient with obs := [.cmd 0x50000000#32, .rsp .illegal] } := by decide

/-- The first word after reset, one for each unit, is run by the very next step. -/
theorem test_reset_runs_encoder_word :
    (encAfter (step (State.reset.withFetchWord 32 0x20000000))).map (fun e => e.obs) =
      some [.cmd 0x20000000#32, .rsp (.value 2#32)] := by decide
theorem test_reset_runs_decoder_word :
    (decAfter (step (State.reset.withFetchWord 32 0x8000007D))).map (fun d => d.fsm) = some .rp := by decide

/-! ## The assembler forms (R86) -/

theorem test_assemble :
    assemble (.encFeedblock [0x55#8, 0x7D#8]) = [0x00000055#32, 0x0000007D#32] ∧ assemble .decSetcbOff = [0xA8000000#32] ∧
    assemble (.word 0x50000000#32) = [0x50000000#32] := by decide

/-! ## Witnesses: for each statement with hypotheses, a state and operands that meet them, for each clause -/

/-- A two-instance state with a schedule. -/
def both (e : Encoder) (d : Decoder) (ms : List Move) : State := { encs := [e], decs := [d], sel := 0, sched := ms }

/-- An encoder with room for one more byte. -/
def sampleEnc : Encoder := enc 3#24 [0x41#8, 0x7F#8] .noError

/-- A full encoder. -/
def fullEnc : Encoder := enc 2#24 [0x41#8, 0x7F#8] .bufInsufficient

/-- A decoder inside a frame. -/
def sampleDec : Decoder := dec .rp 4#24 [0x41#8, 0x42#8] .noError true

/-- A decoder whose consumer holds a delivery. -/
def heldDec : Decoder :=
  { sampleDec with consumer := .holding, delivering := true, cmd := some 0x8000007E#32, obs := [.dlv [0x41#8, 0x42#8] 2#24 .noError] }

theorem sampleEnc_inv : Encoder.Inv sampleEnc :=
  ⟨⟨by decide, by decide, by decide, rfl, by decide, by decide⟩, by decide⟩
theorem fullEnc_inv : Encoder.Inv fullEnc :=
  ⟨⟨by decide, by decide, by decide, rfl, by decide, by decide⟩, by decide⟩
theorem smallestEnc_inv : Encoder.Inv (enc 1#24 [] .noError) :=
  ⟨⟨by decide, by decide, by decide, rfl, by decide, by decide⟩, by decide⟩
theorem sampleDec_inv : Decoder.Inv sampleDec :=
  ⟨⟨by decide, by decide, by decide, rfl, by decide, by decide⟩, by decide, by decide⟩
theorem heldDec_inv : Decoder.Inv heldDec :=
  ⟨⟨by decide, by decide, by decide, rfl, by decide, by decide⟩, by decide, by decide⟩
theorem escapedDec_inv : Decoder.Inv (dec .reb 4#24 [0x41#8] .decodeError true) :=
  ⟨⟨by decide, by decide, by decide, rfl, by decide, by decide⟩, by decide, by decide⟩
theorem searchingDec_inv (cap : Count) (h : 1 ≤ cap.toNat) (h' : cap.toNat ≤ Config.maxCap) :
    Decoder.Inv (dec .sfs cap [] .noError true) :=
  ⟨⟨h, h', Nat.zero_le _, rfl, fun _ hc => absurd hc (List.not_mem_nil), fun a ha => absurd ha (Nat.not_lt_zero a)⟩,
    fun _ => ⟨rfl, rfl⟩, fun h => absurd h Bool.false_ne_true⟩

theorem both_inv {e : Encoder} {d : Decoder} (he : Encoder.Inv e) (hd : Decoder.Inv d) (ms : List Move) : (both e d ms).Inv :=
  ⟨by simpa [both] using he, by simpa [both] using hd⟩

theorem witness_DecodedWordIsItsEncoding :
    decode .enc 0x0000007D#32 = some (.encFeed 0x7D#8) ∧ decode .dec 0xA8000000#32 = some (.decSetcb true) := by decide

theorem witness_ReservedWordsAreIllegal :
    fieldOp 0x50000000#32 = 0b101#3 ∧ fieldOp 0x60000000#32 = 0b110#3 ∧ fieldOp 0x70000000#32 = 0b111#3 ∧
    fieldOp 0xB0000000#32 = 0b011#3 ∧ fieldOp 0xD0000000#32 = 0b101#3 ∧ fieldOp 0xE0000000#32 = 0b110#3 ∧
    fieldOp 0xF0000000#32 = 0b111#3 ∧ (0x01000000#32).extractLsb' 24 3 ≠ 0b000#3 ∧
    (0x04000000#32).extractLsb' 24 3 ≠ 0b000#3 ∧ (0x80000041#32).getLsbD 31 ≠ UnitKind.enc.bit ∧
    (0x00000041#32).getLsbD 31 ≠ UnitKind.dec.bit ∧
    ((0x08000055#32).getLsbD 27 = true ∧ fieldOp 0x08000055#32 ≠ 0b011#3) ∧
    ((0xC8000000#32).getLsbD 27 = true ∧ fieldOp 0xC8000000#32 ≠ 0b010#3) ∧
    ((0x40000001#32).extractLsb' 0 24 ≠ 0#24 ∧ fieldOp 0x40000001#32 ≠ 0b000#3 ∧ fieldOp 0x40000001#32 ≠ 0b011#3) ∧
    ((0xA0000001#32).extractLsb' 0 24 ≠ 0#24 ∧ fieldOp 0xA0000001#32 ≠ 0b000#3) ∧
    (fieldOp 0x00000100#32 = 0b000#3 ∧ (0x00000100#32).extractLsb' 8 16 ≠ 0#16) := by decide

theorem witness_EncLutTakesFirstMatch :
    (0x7D#8 = Lut.default.sof) ∧ (0x7E#8 ≠ Lut.default.sof ∧ 0x7E#8 = Lut.default.eof) ∧
    (0x7F#8 ≠ Lut.default.sof ∧ 0x7F#8 ≠ Lut.default.eof ∧ 0x7F#8 = Lut.default.esc) ∧
    (0x80#8 ≠ Lut.default.sof ∧ 0x80#8 ≠ Lut.default.eof ∧ 0x80#8 ≠ Lut.default.esc) ∧
    (Lut.default.sof ≠ Lut.default.eof ∧ Lut.default.sof ≠ Lut.default.esc ∧ Lut.default.eof ≠ Lut.default.esc) := by decide

theorem witness_DecLutTakesFirstMatch :
    (0x00#8 = Lut.default.idx0) ∧ (0x01#8 ≠ Lut.default.idx0 ∧ 0x01#8 = Lut.default.idx1) ∧
    (0x02#8 ≠ Lut.default.idx0 ∧ 0x02#8 ≠ Lut.default.idx1 ∧ 0x02#8 = Lut.default.idx2) ∧
    (0x03#8 ≠ Lut.default.idx0 ∧ 0x03#8 ≠ Lut.default.idx1 ∧ 0x03#8 ≠ Lut.default.idx2) := by decide

theorem witness_LookupsAreInverse :
    Lut.Distinct Lut.default ∧ isMarker Lut.default 0x7F#8 = true ∧ (0x02#8 = Lut.default.idx2) := by decide

theorem witness_StepRunsTheDecodedCommand :
    (∃ (s : State) (e : Encoder), s.sched = [.run (.enc 0)] ∧ s.encs[0]? = some e ∧ e.cmd = some 0x20000000#32 ∧
      decode .enc 0x20000000#32 = some .encSize) ∧
    (∃ (s : State) (d : Decoder), s.sched = [.run (.dec 0)] ∧ s.decs[0]? = some d ∧ d.cmd = some 0x8000007E#32 ∧
      d.delivering = false ∧ decode .dec 0x8000007E#32 = some (.decFeed 0x7E#8)) :=
  ⟨⟨both { sampleEnc with cmd := some 0x20000000#32 } sampleDec [.run (.enc 0)], _, rfl, rfl, rfl, by decide⟩,
    ⟨both sampleEnc { sampleDec with cmd := some 0x8000007E#32 } [.run (.dec 0)], _, rfl, rfl, rfl, rfl, by decide⟩⟩

theorem witness_IllegalWordChangesNothing :
    (∃ (s : State) (e : Encoder), s.sched = [.run (.enc 0)] ∧ s.encs[0]? = some e ∧ e.cmd = some 0x50000000#32 ∧
      decode .enc 0x50000000#32 = none) ∧
    (∃ (s : State) (d : Decoder), s.sched = [.run (.dec 0)] ∧ s.decs[0]? = some d ∧ d.cmd = some 0xB0000000#32 ∧
      d.delivering = false ∧ decode .dec 0xB0000000#32 = none) :=
  ⟨⟨both { sampleEnc with cmd := some 0x50000000#32 } sampleDec [.run (.enc 0)], _, rfl, rfl, rfl, by decide⟩,
    ⟨both sampleEnc { sampleDec with cmd := some 0xB0000000#32 } [.run (.dec 0)], _, rfl, rfl, rfl, rfl, by decide⟩⟩

theorem witness_OverlappingCommandIsRefused :
    (∃ (s : State) (e : Encoder), s.sched = [.issue (.enc 0) 0#32] ∧ s.encs[0]? = some e ∧ e.cmd = none) ∧
    (∃ (s : State) (e : Encoder), s.sched = [.issue (.enc 0) 0#32] ∧ s.encs[0]? = some e ∧ e.cmd ≠ none) ∧
    (∃ (s : State) (d : Decoder), s.sched = [.issue (.dec 0) 0#32] ∧ s.decs[0]? = some d ∧ d.delivering = false ∧
      d.cmd = none) ∧
    (∃ (s : State) (d : Decoder), s.sched = [.issue (.dec 0) 0#32] ∧ s.decs[0]? = some d ∧ d.delivering = false ∧
      d.cmd ≠ none) :=
  ⟨⟨both sampleEnc sampleDec [.issue (.enc 0) 0#32], _, rfl, rfl, rfl⟩,
    ⟨both { sampleEnc with cmd := some 1#32 } sampleDec [.issue (.enc 0) 0#32], _, rfl, rfl, by decide⟩,
    ⟨both sampleEnc sampleDec [.issue (.dec 0) 0#32], _, rfl, rfl, rfl, rfl⟩,
    ⟨both sampleEnc { sampleDec with cmd := some 1#32 } [.issue (.dec 0) 0#32], _, rfl, rfl, rfl, by decide⟩⟩

theorem witness_CommandDuringDeliveryIsRefused :
    (∃ (s : State) (d : Decoder), s.sched = [.issue (.dec 0) 0x90000000#32] ∧ s.decs[0]? = some d ∧ d.delivering = true) ∧
    (∃ (s : State) (d : Decoder), s.dec? = some d ∧ d.delivering = true ∧ Instr.decReset.unit = .dec) :=
  ⟨⟨both sampleEnc heldDec [.issue (.dec 0) 0x90000000#32], _, rfl, rfl, rfl⟩, ⟨both sampleEnc heldDec [], _, rfl, rfl, rfl⟩⟩

theorem witness_IdleBlockKeepsItsState :
    (∃ s : State, s.sched = []) ∧ (∃ s : State, s.sched = [.run (.dec 0)] ∧ s.outstanding (.dec 0) = some none) :=
  ⟨⟨State.reset, rfl⟩, ⟨both sampleEnc sampleDec [.run (.dec 0)], rfl, rfl⟩⟩

/-- The parameters with a capacity. -/
def params (cap : Nat) : ElabParams := { cap := cap, lut := otherLut, errCombine := .firstWins }

theorem witness_ElaborationGivesResetValues :
    (∃ s : State, s.sched = [.elabEnc (params 1)] ∧ 1 ≤ (params 1).cap ∧ (params 1).cap ≤ 2 ^ 24 - 3) ∧
    (∃ s : State, s.sched = [.elabDec (params 16777213)] ∧ 1 ≤ (params 16777213).cap ∧
      (params 16777213).cap ≤ 2 ^ 24 - 3) ∧
    (∃ s : State, s.sched = [.elabEnc (params 0)] ∧ (params 0).cap = 0) ∧
    (∃ s : State, s.sched = [.elabDec (params 16777214)] ∧ 2 ^ 24 - 3 < (params 16777214).cap) :=
  ⟨⟨{ State.reset with sched := [.elabEnc (params 1)] }, rfl, by decide, by decide⟩,
    ⟨{ State.reset with sched := [.elabDec (params 16777213)] }, rfl, by decide, by decide⟩,
    ⟨{ State.reset with sched := [.elabEnc (params 0)] }, rfl, rfl⟩,
    ⟨{ State.reset with sched := [.elabDec (params 16777214)] }, rfl, by decide⟩⟩

/-- sampleDec with a word outstanding. -/
def askedDec : Decoder := { sampleDec with cmd := some 0x8000007F#32 }

theorem askedDec_inv : Decoder.Inv askedDec := ⟨{ sampleDec_inv.base with }, by decide, by decide⟩

theorem witness_StepKeepsStateGood :
    ∃ s t : State, s.Inv ∧ s.sched = [.run (.dec 0)] ∧ step s = .next t :=
  ⟨both sampleEnc askedDec [.run (.dec 0)], _, both_inv sampleEnc_inv askedDec_inv _, rfl, rfl⟩

theorem witness_GoodStateNeverFaults : ∃ s : State, s.Inv ∧ s.decs = [heldDec] :=
  ⟨both fullEnc heldDec [.finish 0], both_inv fullEnc_inv heldDec_inv _, rfl⟩

theorem witness_EncFeedAppendsEscapedByte :
    (∃ (s : State) (e : Encoder), s.enc? = some e ∧ e.cursor.toNat ≤ e.cap.toNat ∧ encLut e.lut 0x00#8 = none ∧
      e.cursor.toNat < e.cap.toNat) ∧
    (∃ (s : State) (e : Encoder), s.enc? = some e ∧ e.cursor.toNat ≤ e.cap.toNat ∧ encLut e.lut 0x7E#8 = some 0x01#8 ∧
      e.cursor.toNat + 1 < e.cap.toNat) ∧
    (∃ (s : State) (e : Encoder), s.enc? = some e ∧ e.cursor.toNat ≤ e.cap.toNat ∧ encLut e.lut 0x7F#8 = some 0x02#8 ∧
      e.cursor.toNat + 1 = e.cap.toNat) ∧
    (∃ (s : State) (e : Encoder), s.enc? = some e ∧ e.cursor.toNat ≤ e.cap.toNat ∧ e.cursor.toNat = e.cap.toNat) ∧
    0x0000007D#32 &&& 0xFFFFFF00#32 = 0x00000000#32 :=
  ⟨⟨encState sampleEnc, _, rfl, by decide, by decide, by decide⟩,
    ⟨encState (enc 2#24 [] .noError), _, rfl, by decide, by decide, by decide⟩,
    ⟨encState sampleEnc, _, rfl, by decide, by decide, by decide⟩,
    ⟨encState fullEnc, _, rfl, by decide, by decide⟩, by decide⟩

theorem witness_PartialEscapeLeavesLoneEsc :
    (∃ (s : State) (e : Encoder), s.enc? = some e ∧ Encoder.Inv e ∧ isMarker e.lut 0x7D#8 = true ∧
      e.cursor.toNat + 1 = e.cap.toNat ∧ e.cap.toNat + 2 ≤ (5#24).toNat) ∧
    (∃ (s : State) (e : Encoder), s.enc? = some e ∧ Encoder.Inv e ∧ isMarker e.lut 0x7E#8 = true ∧
      e.cursor.toNat + 1 = e.cap.toNat ∧ e.cap.toNat + 2 ≤ (100#24).toNat) :=
  ⟨⟨encState sampleEnc, _, rfl, sampleEnc_inv, by decide, by decide, by decide⟩,
    ⟨encState (enc 1#24 [] .noError), _, rfl, smallestEnc_inv, by decide, by decide, by decide⟩⟩

theorem witness_FullEncoderRefusesEveryFeed :
    ∃ (s : State) (e : Encoder), s.enc? = some e ∧ Encoder.Inv e ∧ e.cursor = e.cap :=
  ⟨encState fullEnc, _, rfl, fullEnc_inv, rfl⟩

theorem witness_EncResetClearsCursorAndErr :
    (0x10000000#32 &&& 0xFFFFFFFF#32 = 0x10000000#32) ∧ ∃ s : State, s.enc? = some fullEnc :=
  ⟨by decide, encState fullEnc, rfl⟩

theorem witness_EncSizeIsCursorPlusTwo :
    (0x20000000#32 &&& 0xFFFFFFFF#32 = 0x20000000#32) ∧ ∃ s : State, s.enc? = some fullEnc :=
  ⟨by decide, encState fullEnc, rfl⟩

theorem witness_EncGetresultCopiesFrameImage :
    (0x38000064#32 &&& 0xF7000000#32 = 0x30000000#32) ∧
    (∃ (s : State) (e : Encoder), s.enc? = some e ∧ Encoder.Inv e) ∧ ((0#24 : Count).toNat = 0) ∧
    ((1#24 : Count).toNat ≠ 0) ∧ ((0xFFFFFF#24 : Count).toNat ≠ 0) :=
  ⟨by decide, ⟨encState sampleEnc, _, rfl, sampleEnc_inv⟩, by decide, by decide, by decide⟩

theorem witness_EncStatusReadsStatusWord :
    (0x40000000#32 &&& 0xFFFFFFFF#32 = 0x40000000#32) ∧ ∃ s : State, s.enc? = some fullEnc :=
  ⟨by decide, encState fullEnc, rfl⟩

theorem witness_EncoderCommandFrame :
    ∃ (s : State) (e : Encoder), s.enc? = some e ∧
      (∃ t, exec (.encFeed 0x7D#8) s = .next t) ∧ (∃ t, exec .encReset s = .next t) ∧
      (∃ t, exec (.encGetresult false 3#24) s = .next t) ∧ Instr.encReset.unit = .enc ∧ (1 ≠ s.sel) :=
  ⟨encState sampleEnc, _, rfl, ⟨_, rfl⟩, ⟨_, rfl⟩, ⟨_, rfl⟩, rfl, by decide⟩

theorem witness_ReadingCommandsAreIdempotent :
    (∃ (s : State) (e : Encoder), s.enc? = some e ∧ (∃ t, exec .encSize s = .next t) ∧ (∃ t, exec .encStatus s = .next t) ∧
      (∃ t, exec (.encGetresult true 3#24) s = .next t)) ∧
    (∃ (s : State) (d : Decoder), s.dec? = some d ∧ ∃ t, exec .decStatus s = .next t) :=
  ⟨⟨encState sampleEnc, _, rfl, ⟨_, rfl⟩, ⟨_, rfl⟩, ⟨_, rfl⟩⟩, ⟨decState sampleDec, _, rfl, _, rfl⟩⟩

theorem witness_EncoderMakesTheWireFrame :
    (∃ (s : State) (e : Encoder), s.enc? = some e ∧ e.cursor = 0#24 ∧ e.err = .noError ∧
      (escapePayload e.lut [0x55#8, 0x7D#8]).length ≤ e.cap.toNat) ∧
    (Lut.default.sof ≠ Lut.default.eof ∧ Lut.default.sof ≠ Lut.default.esc ∧ Lut.default.eof ≠ Lut.default.esc) ∧
    (∀ b ∈ [0x00#8, 0xFF#8], isMarker Lut.default b = false) :=
  ⟨⟨encState (enc 3#24 [] .noError), _, rfl, rfl, rfl, by decide⟩, by decide, by decide⟩

theorem witness_ResetEncoderIsLikeNew :
    (∃ s : State, s.enc? = some fullEnc) ∧ (∀ i ∈ [Instr.encFeed 0x7D#8, .encSize, .encGetresult false 9#24], i.unit = .enc) :=
  ⟨⟨encState fullEnc, rfl⟩, by decide⟩

theorem witness_EncoderBytesAboveCursorUnobserved :
    ∃ (s t : State) (e f : Encoder), s.enc? = some e ∧ Inst.Alike e f ∧ e ≠ f ∧ exec (.encFeed 0x00#8) s = .next t :=
  ⟨encState sampleEnc, _, sampleEnc, { sampleEnc with buf := cells [0x41#8, 0x7F#8, 0x99#8] }, rfl,
    ⟨rfl, rfl, rfl, rfl, rfl, rfl, by decide⟩, by decide, rfl⟩

theorem witness_SearchingDecoderTakesOnlySof :
    ∃ (s : State) (d : Decoder), s.dec? = some d ∧ d.delivering = false ∧ d.fsm = .sfs ∧ (0x7D#8 = d.lut.sof) ∧
      (0x7E#8 ≠ d.lut.sof) ∧ Decoder.Inv d :=
  ⟨decState (dec .sfs 4#24 [] .noError true), _, rfl, rfl, rfl, rfl, by decide, searchingDec_inv _ (by decide) (by decide)⟩

theorem witness_EofCompletesTheFrame :
    (∃ (s : State) (d : Decoder), s.dec? = some d ∧ Decoder.Inv d ∧ d.delivering = false ∧ d.fsm = .rp ∧
      0x7E#8 = d.lut.eof ∧ d.cbEn = true ∧ d.consumer = .prompt) ∧
    (∃ (s : State) (d : Decoder), s.dec? = some d ∧ Decoder.Inv d ∧ d.delivering = false ∧ d.fsm = .rp ∧
      0x7E#8 = d.lut.eof ∧ d.cbEn = false) :=
  ⟨⟨decState sampleDec, _, rfl, sampleDec_inv, rfl, rfl, rfl, rfl, rfl⟩,
    ⟨decState { sampleDec with cbEn := false }, _, rfl, ⟨sampleDec_inv.base, by decide, by decide⟩, rfl, rfl, rfl, rfl⟩⟩

theorem witness_HoldingConsumerDelaysTheAck :
    (∃ (s : State) (d : Decoder), s.dec? = some d ∧ Decoder.Inv d ∧ d.delivering = false ∧ d.fsm = .rp ∧ d.cbEn = true ∧
      d.consumer = .holding) ∧
    (∃ (s : State) (d : Decoder), s.decs[0]? = some d ∧ d.delivering = true ∧ s.sched = [.run (.dec 0)]) ∧
    (∃ (s : State) (d : Decoder), s.decs[0]? = some d ∧ d.delivering = true ∧ s.sched = [.issue (.dec 0) 0#32]) ∧
    (∃ (s : State) (d : Decoder), s.decs[0]? = some d ∧ d.delivering = true ∧ s.sched = [.finish 0]) :=
  ⟨⟨decState { sampleDec with consumer := .holding }, _, rfl, ⟨sampleDec_inv.base, by decide, by decide⟩, rfl, rfl, rfl, rfl⟩,
    ⟨both sampleEnc heldDec [.run (.dec 0)], _, rfl, rfl, rfl⟩,
    ⟨both sampleEnc heldDec [.issue (.dec 0) 0#32], _, rfl, rfl, rfl⟩, ⟨both sampleEnc heldDec [.finish 0], _, rfl, rfl, rfl⟩⟩

theorem witness_PayloadByteIsAppended :
    (∃ (s : State) (d : Decoder), s.dec? = some d ∧ d.delivering = false ∧ d.fsm = .rp ∧ 0x7F#8 ≠ d.lut.eof ∧
      d.cursor.toNat ≤ d.cap.toNat ∧ 0x7F#8 = d.lut.esc) ∧
    (∃ (s : State) (d : Decoder), s.dec? = some d ∧ d.delivering = false ∧ d.fsm = .rp ∧ 0x7D#8 ≠ d.lut.eof ∧
      d.cursor.toNat ≤ d.cap.toNat ∧ 0x7D#8 ≠ d.lut.esc ∧ d.cursor.toNat < d.cap.toNat) ∧
    (∃ (s : State) (d : Decoder), s.dec? = some d ∧ d.delivering = false ∧ d.fsm = .rp ∧ 0x42#8 ≠ d.lut.eof ∧
      d.cursor.toNat ≤ d.cap.toNat ∧ 0x42#8 ≠ d.lut.esc ∧ d.cursor.toNat = d.cap.toNat) :=
  ⟨⟨decState sampleDec, _, rfl, rfl, rfl, by decide, by decide, rfl⟩,
    ⟨decState (dec .rp 3#24 [1#8, 2#8] .noError true), _, rfl, rfl, rfl, by decide, by decide, by decide, by decide⟩,
    ⟨decState (dec .rp 2#24 [1#8, 2#8] .noError true), _, rfl, rfl, rfl, by decide, by decide, by decide, by decide⟩⟩

theorem witness_EscapeIndexAppendsItsMarker :
    (∃ (s : State) (d : Decoder), s.dec? = some d ∧ d.delivering = false ∧ d.fsm = .reb ∧
      decLut d.lut 0x02#8 = some 0x7F#8 ∧ d.cursor.toNat ≤ d.cap.toNat ∧ d.cursor.toNat < d.cap.toNat) ∧
    (∃ (s : State) (d : Decoder), s.dec? = some d ∧ d.delivering = false ∧ d.fsm = .reb ∧
      decLut d.lut 0x00#8 = some 0x7D#8 ∧ d.cursor.toNat ≤ d.cap.toNat ∧ d.cursor.toNat = d.cap.toNat) :=
  ⟨⟨decState (dec .reb 3#24 [1#8, 2#8] .noError true), _, rfl, rfl, rfl, by decide, by decide, by decide⟩,
    ⟨decState (dec .reb 2#24 [1#8, 2#8] .noError true), _, rfl, rfl, rfl, by decide, by decide, by decide⟩⟩

theorem witness_BadEscapeIndexRaisesDecodeError :
    ∃ (s : State) (d : Decoder), s.dec? = some d ∧ d.delivering = false ∧ d.fsm = .reb ∧ 0x7E#8 ≠ d.lut.idx0 ∧
      0x7E#8 ≠ d.lut.idx1 ∧ 0x7E#8 ≠ d.lut.idx2 :=
  ⟨decState (dec .reb 2#24 [1#8] .noError true), _, rfl, rfl, rfl, by decide, by decide, by decide⟩

theorem witness_FsmFollowsTransitionTable :
    ∃ (s : State) (d : Decoder), s.dec? = some d ∧ Decoder.Inv d ∧ d.delivering = false ∧ d.consumer = .prompt :=
  ⟨decState sampleDec, _, rfl, sampleDec_inv, rfl, rfl⟩

theorem witness_DecResetForcesSearching :
    (0x90000000#32 &&& 0xFFFFFFFF#32 = 0x90000000#32) ∧
    ∃ (s : State) (d : Decoder), s.dec? = some d ∧ d.delivering = false :=
  ⟨by decide, decState sampleDec, _, rfl, rfl⟩

theorem witness_DecSetcbWritesCbEn :
    (0xA8000000#32 &&& 0xF7FFFFFF#32 = 0xA0000000#32) ∧ (0xA0000000#32 &&& 0xF7FFFFFF#32 = 0xA0000000#32) ∧
    ∃ (s : State) (d : Decoder), s.dec? = some d ∧ d.delivering = false ∧ Decoder.Inv d ∧ d.fsm = .rp ∧ d.consumer = .prompt :=
  ⟨by decide, by decide, decState sampleDec, _, rfl, rfl, sampleDec_inv, rfl, rfl⟩

theorem witness_DecStatusReadsStatusWord :
    (0xC0000000#32 &&& 0xFFFFFFFF#32 = 0xC0000000#32) ∧
    (∃ (s : State) (d : Decoder), s.dec? = some d ∧ d.delivering = false) ∧
    (∃ (s : State) (d : Decoder), s.dec? = some d ∧ d.delivering = false ∧ Decoder.Inv d ∧ d.fsm = .sfs) :=
  ⟨by decide, ⟨decState sampleDec, _, rfl, rfl⟩,
    ⟨decState (dec .sfs 4#24 [] .noError true), _, rfl, rfl, searchingDec_inv _ (by decide) (by decide), rfl⟩⟩

theorem witness_DecoderCommandFrame :
    ∃ (s : State) (d : Decoder), s.dec? = some d ∧ (∃ t, exec (.decFeed 0x7E#8) s = .next t) ∧
      (∃ t, exec .decReset s = .next t) ∧ (∃ t, exec (.decSetcb true) s = .next t) ∧
      (∃ t, exec .decStatus s = .next t) ∧ Instr.decStatus.unit = .dec ∧ (1 ≠ s.sel) :=
  ⟨decState sampleDec, _, rfl, ⟨_, rfl⟩, ⟨_, rfl⟩, ⟨_, rfl⟩, ⟨_, rfl⟩, rfl, by decide⟩

theorem witness_GarbageBeforeSofIsIgnored :
    ∃ (s : State) (d : Decoder), s.dec? = some d ∧ d.delivering = false ∧ d.fsm = .sfs ∧
      (∀ b ∈ [0x00#8, 0x7E#8, 0x7F#8], b ≠ d.lut.sof) :=
  ⟨decState (dec .sfs 4#24 [] .noError true), _, rfl, rfl, rfl, by decide⟩

theorem witness_ResetDecoderIsLikeNew :
    (∃ (s : State) (d : Decoder), s.dec? = some d ∧ d.delivering = false ∧ d.consumer = .prompt) ∧
    (∀ i ∈ [Instr.decFeed 0x7D#8, .decFeed 0x7E#8, .decStatus], i.unit = .dec) :=
  ⟨⟨decState sampleDec, _, rfl, rfl, rfl⟩, by decide⟩

theorem witness_DecoderBytesAboveCursorUnobserved :
    ∃ (s t : State) (c d : Decoder), s.dec? = some c ∧ Decoder.Alike c d ∧ c ≠ d ∧ exec (.decFeed 0x7E#8) s = .next t :=
  ⟨decState sampleDec, _, sampleDec, { sampleDec with buf := cells [0x41#8, 0x42#8, 0x99#8] }, rfl,
    ⟨⟨rfl, rfl, rfl, rfl, rfl, rfl, by decide⟩, rfl, rfl, rfl, rfl⟩, by decide, rfl⟩

theorem witness_RoundTripDeliversThePayload :
    ∃ (s t : State) (e : Encoder) (d : Decoder), s.enc? = some e ∧ t.dec? = some d ∧ d.lut = e.lut ∧ e.lut.Distinct ∧
      e.cursor = 0#24 ∧ e.err = .noError ∧ Encoder.Inv e ∧
      [0x7D#8].length + markerCount e.lut [0x7D#8] ≤ e.cap.toNat ∧ Decoder.Inv d ∧ d.fsm = .sfs ∧ d.cbEn = true ∧
      d.consumer = .prompt ∧ d.delivering = false ∧ [0x7D#8].length ≤ d.cap.toNat :=
  ⟨encState (enc 2#24 [] .noError), decState (dec .sfs 1#24 [] .noError true), _, _, rfl, rfl, rfl, by decide, rfl, rfl,
    ⟨⟨by decide, by decide, by decide, rfl, by decide, by decide⟩, by decide⟩, by decide,
    searchingDec_inv _ (by decide) (by decide), rfl, rfl, rfl, rfl, by decide⟩

theorem witness_OversizedFrameDeliversFirstCapBytes :
    ∃ (s : State) (d : Decoder), s.dec? = some d ∧ Decoder.Inv d ∧ d.lut.Distinct ∧ d.fsm = .sfs ∧ d.cbEn = true ∧
      d.consumer = .prompt ∧ d.delivering = false ∧ d.cap.toNat < [0x55#8, 0x7D#8].length :=
  ⟨decState (dec .sfs 1#24 [] .noError true), _, rfl, searchingDec_inv _ (by decide) (by decide), by decide, rfl, rfl,
    rfl, rfl, by decide⟩

theorem witness_ErrorStaysUntilReset :
    (∃ (s t : State) (e e' : Encoder), s.enc? = some e ∧ exec .encReset s = .next t ∧ t.enc? = some e' ∧
      e.err ≠ .noError ∧ e'.err = .noError) ∧
    (∃ (s t : State) (d d' : Decoder), s.dec? = some d ∧ exec .decReset s = .next t ∧ t.dec? = some d' ∧
      d.err ≠ .noError ∧ d'.err = .noError) ∧
    (∃ (s t : State) (d d' : Decoder), s.dec? = some d ∧ exec (.decFeed 0x7E#8) s = .next t ∧ t.dec? = some d' ∧
      d.err ≠ .noError ∧ d'.err = .noError) :=
  ⟨⟨encState fullEnc, _, _, _, rfl, rfl, rfl, by decide, rfl⟩,
    ⟨decState (dec .reb 4#24 [] .decodeError true), _, _, _, rfl, rfl, rfl, by decide, rfl⟩,
    ⟨decState (dec .rp 4#24 [] .decodeError true), _, _, _, rfl, rfl, rfl, by decide, rfl⟩⟩

theorem witness_ErrCombineDecidesSecondError :
    (∃ (s : State) (d : Decoder), s.dec? = some d ∧ d.delivering = false ∧ d.cursor = d.cap ∧ d.err = .decodeError ∧
      (d.fsm = .rp ∧ 0x02#8 ≠ d.lut.eof ∧ 0x02#8 ≠ d.lut.esc) ∧ d.errCombine = .lastWins) ∧
    (∃ (s : State) (d : Decoder), s.dec? = some d ∧ d.delivering = false ∧ d.cursor = d.cap ∧ d.err = .decodeError ∧
      (d.fsm = .reb ∧ ∃ m, decLut d.lut 0x02#8 = some m) ∧ d.errCombine = .firstWins) ∧
    (∃ (s : State) (d : Decoder), s.dec? = some d ∧ d.delivering = false ∧ d.fsm = .reb ∧ d.err = .bufInsufficient ∧
      decLut d.lut 0x7E#8 = none ∧ d.errCombine = .lastWins) ∧
    (∃ (s : State) (d : Decoder), s.dec? = some d ∧ d.delivering = false ∧ d.fsm = .reb ∧ d.err = .bufInsufficient ∧
      decLut d.lut 0x7E#8 = none ∧ d.errCombine = .firstWins) :=
  ⟨⟨decState (dec .rp 1#24 [0x01#8] .decodeError true), _, rfl, rfl, rfl, rfl, ⟨rfl, by decide, by decide⟩, rfl⟩,
    ⟨decState { dec .reb 1#24 [0x01#8] .decodeError true with errCombine := .firstWins }, _, rfl, rfl, rfl, rfl, ⟨rfl, _, rfl⟩,
      rfl⟩,
    ⟨decState (dec .reb 1#24 [0x01#8] .bufInsufficient true), _, rfl, rfl, rfl, rfl, by decide, rfl⟩,
    ⟨decState { dec .reb 1#24 [0x01#8] .bufInsufficient true with errCombine := .firstWins }, _, rfl, rfl, rfl, rfl, by decide,
      rfl⟩⟩

theorem witness_EveryFeedIsAcknowledged :
    (∃ (s : State) (e : Encoder), s.enc? = some e ∧ Encoder.Inv e) ∧
    (∃ (s : State) (d : Decoder), s.dec? = some d ∧ Decoder.Inv d ∧ d.delivering = false ∧ d.consumer = .prompt) :=
  ⟨⟨encState fullEnc, _, rfl, fullEnc_inv⟩,
    ⟨decState (dec .reb 4#24 [0x41#8] .decodeError true), _, rfl, escapedDec_inv, rfl, rfl⟩⟩

theorem witness_CursorOnlyGrowsBetweenResets :
    (∃ (s t : State) (e e' : Encoder), s.enc? = some e ∧ exec (.encFeed 0x7D#8) s = .next t ∧ t.enc? = some e' ∧
      Instr.encFeed 0x7D#8 ≠ .encReset) ∧
    (∃ (s t : State) (d d' : Decoder), s.dec? = some d ∧ exec (.decFeed 0x7E#8) s = .next t ∧ t.dec? = some d' ∧
      Instr.decFeed 0x7E#8 ≠ .decReset ∧ ¬ (Instr.decFeed 0x7E#8 = .decFeed d.lut.eof ∧ d.fsm = .rp)) :=
  ⟨⟨encState sampleEnc, _, _, _, rfl, rfl, rfl, by decide⟩,
    ⟨decState (dec .reb 4#24 [0x41#8] .noError true), _, _, _, rfl, rfl, rfl, by decide, by decide⟩⟩

theorem witness_ConfigurationNeverChanges :
    ∃ (s t : State) (e : Encoder) (d : Decoder), step s = .next t ∧ s.encs[0]? = some e ∧ s.decs[0]? = some d :=
  ⟨both sampleEnc heldDec [.finish 0], _, _, _, rfl, rfl, rfl⟩

theorem witness_MoveTouchesOnlyItsInstance :
    ∃ (s t : State), s.sched = [.finish 0] ∧ (Move.finish 0).port? = some (.dec 0) ∧ step s = .next t ∧
      (Port.dec 0 ≠ .enc 0) ∧ (Port.dec 0 ≠ .dec 1) :=
  ⟨both sampleEnc heldDec [.finish 0], _, rfl, rfl, rfl, by decide, by decide⟩

theorem witness_MovesOfDifferentInstancesCommute :
    ∃ (s t : State), (Move.run (.enc 0)).port? = some (.enc 0) ∧ (Move.finish 0).port? = some (.dec 0) ∧
      Port.enc 0 ≠ .dec 0 ∧
      Host.Core.run Sys2Proof.core 2 ({ s with sched := [.run (.enc 0), .finish 0] } : State) = .next t :=
  ⟨both { sampleEnc with cmd := some 0x20000000#32 } heldDec [], _, rfl, rfl, by decide, rfl⟩

theorem witness_EveryCommandGetsOneResponse :
    (∃ s : State, s.Inv ∧ s.outstanding (.enc 0) = some none ∧ s.promptAt (.enc 0) ∧ s.events (.enc 0) = some []) ∧
    (∃ s : State, s.Inv ∧ s.outstanding (.dec 0) = some none ∧ s.promptAt (.dec 0) ∧ s.events (.dec 0) = some []) :=
  ⟨⟨both sampleEnc sampleDec [], both_inv sampleEnc_inv sampleDec_inv _, rfl, trivial, rfl⟩,
    ⟨both sampleEnc sampleDec [], both_inv sampleEnc_inv sampleDec_inv _, rfl, by simp [State.promptAt, both, sampleDec, dec], rfl⟩⟩

end Sys2Proof.Tests
end

section
/-! PROOFS. What every move keeps: the statements on a step of the system, on elaboration and on the invariant State.Inv. -/

namespace Sys2Proof.Machine

/-! ## Lists of instances -/

theorem forall_mem_set {α : Type} {P : α → Prop} {l : List α} {k : Nat} {b : α} (hl : ∀ a ∈ l, P a) (hb : P b) :
    ∀ a ∈ l.set k b, P a := fun a ha =>
  (List.mem_or_eq_of_mem_set ha).elim (hl a) fun h => h ▸ hb

/-- Changing one element keeps what holds of all, when the change keeps it of the element that is there. -/
theorem forall_mem_modify {α : Type} {P : α → Prop} {l : List α} {k : Nat} {f : α → α} (hl : ∀ a ∈ l, P a)
    (hf : ∀ a, l[k]? = some a → P a → P (f a)) : ∀ a ∈ l.modify k f, P a := by
  cases hk : l[k]? with
  | none => rwa [List.modify_eq_self (List.getElem?_eq_none_iff.mp hk)]
  | some a =>
    rw [modify_of_getElem? f hk]
    exact forall_mem_set hl (hf a hk (hl a (List.mem_of_getElem? hk)))

/-! ## What a step and a move can do -/

theorem step_nil {s : State} (h : s.sched = []) : step s = .next s := by
  simp [step, h]

theorem step_cons {s : State} {m : Move} {ms : List Move} (h : s.sched = m :: ms) :
    step s = doMove m { s with sched := ms } := by
  simp [step, h]

@[simp] theorem State.deliveringAt_enc (s : State) (k : Nat) : s.deliveringAt (.enc k) = false := rfl

theorem State.deliveringAt_dec {s : State} {k : Nat} {d : Decoder} (h : s.decs[k]? = some d) :
    s.deliveringAt (.dec k) = d.delivering := by
  simp [State.deliveringAt, h]

theorem State.outstanding_enc {s : State} {k : Nat} {e : Encoder} (h : s.encs[k]? = some e) :
    s.outstanding (.enc k) = some e.cmd := by
  simp [State.outstanding, h]

theorem State.outstanding_dec {s : State} {k : Nat} {d : Decoder} (h : s.decs[k]? = some d) :
    s.outstanding (.dec k) = some d.cmd := by
  simp [State.outstanding, h]

theorem State.accept_enc {s : State} {k : Nat} {e : Encoder} (w : Word) (h : s.encs[k]? = some e) :
    s.accept (.enc k) w = { s with sel := k, encs := s.encs.set k (e.take w) } := by
  simp [State.accept, modify_of_getElem? _ h]

theorem State.accept_dec {s : State} {k : Nat} {d : Decoder} (w : Word) (h : s.decs[k]? = some d) :
    s.accept (.dec k) w = { s with sel := k, decs := s.decs.set k { d with toInst := d.toInst.take w } } := by
  simp [State.accept, modify_of_getElem? _ h]

/-- Taking a word ends no delivery and begins none. -/
@[simp] theorem State.accept_deliveringAt (s : State) (p : Port) (w : Word) :
    (s.accept p w).deliveringAt p = s.deliveringAt p := by
  cases p with
  | enc k => rfl
  | dec k => cases h : s.decs[k]? <;> simp [State.accept, State.deliveringAt, h]

/-- The decoder that has taken a word still owes its response. -/
theorem State.accept_dec?_cmd {s : State} {k : Nat} {w v : Word} {d : Decoder}
    (hw : s.outstanding (.dec k) = some (some v)) (h : (s.accept (.dec k) w).dec? = some d) : d.cmd = some v := by
  obtain ⟨d0, hd0, hcmd⟩ := Option.map_eq_some_iff.mp hw
  have hd : (s.accept (.dec k) w).dec? = some { d0 with toInst := d0.toInst.take w } := by
    simp [State.accept, State.dec?, hd0]
  rw [hd, Option.some.injEq] at h
  rw [← h]
  exact hcmd

/-- The run of a port with nothing outstanding keeps the state. -/
theorem runPort_idle {s : State} {p : Port} (h : s.outstanding p = some none) : runPort p s = .next s := by
  simp [runPort, h]

/-- The run of a port whose outstanding word decodes is the command. -/
theorem runPort_decoded {s : State} {p : Port} {w : Word} {i : Instr} (ho : s.outstanding p = some (some w))
    (hd : s.deliveringAt p = false) (hi : decode p.unit w = some i) : runPort p s = exec i (s.accept p w) := by
  simp [runPort, ho, hd, hi]

/-- Everything the run of a port can do when it answers a next state: nothing, a command, or the response ILLEGAL. -/
theorem runPort_next {s t : State} {p : Port} (h : runPort p s = .next t) :
    t = s ∨ ∃ w, s.outstanding p = some (some w) ∧ s.deliveringAt p = false ∧
      ((∃ i, decode p.unit w = some i ∧ exec i (s.accept p w) = .next t) ∨
        (decode p.unit w = none ∧ t = (s.accept p w).respondIllegal p)) := by
  unfold runPort at h
  split at h
  · cases h
  · cases h; exact .inl rfl
  · next w hw =>
    split at h
    · cases h; exact .inl rfl
    · next hn =>
      refine .inr ⟨w, hw, by simpa using hn, ?_⟩
      split at h
      · next i hi => exact .inl ⟨i, hi, h⟩
      · next hi => cases h; exact .inr ⟨hi, rfl⟩

/-- Everything the move issue can do when it answers a next state. -/
theorem issueCmd_next {s t : State} {p : Port} {w : Word} (h : issueCmd p w s = .next t) :
    s.outstanding p = some none ∧ s.deliveringAt p = false ∧ t = s.putCmd p w := by
  unfold issueCmd at h
  split at h
  · cases h
  · next c hc =>
    split at h
    · cases h
    · split at h
      · cases h
      · next hn hs =>
        cases h
        obtain rfl : c = none := by simpa using hs
        exact ⟨hc, by simpa using hn, rfl⟩

/-- Everything the move finish can do when it answers a next state. -/
theorem finishConsumer_next {s t : State} {k : Nat} (h : finishConsumer k s = .next t) :
    ∃ d, s.decs[k]? = some d ∧
      ((d.delivering = true ∧ t = { s with decs := s.decs.set k (finishDelivery d) }) ∨
        (d.delivering = false ∧ t = s)) := by
  unfold finishConsumer at h
  split at h
  · cases h
  · next d hd =>
    refine ⟨d, hd, ?_⟩
    split at h
    · next hn => cases h; exact .inl ⟨hn, rfl⟩
    · next hn => cases h; exact .inr ⟨by simpa using hn, rfl⟩

/-- Everything the move attach can do when it answers a next state. -/
theorem attachConsumer_next {s t : State} {k : Nat} {c : Consumer} (h : attachConsumer k c s = .next t) :
    ∃ d, s.decs[k]? = some d ∧ t = { s with decs := s.decs.set k { d with consumer := c } } := by
  unfold attachConsumer at h
  split at h
  · cases h
  · next d hd => cases h; exact ⟨d, hd, rfl⟩

/-! ## Elaboration -/

theorem ElabParams.wf_iff {p : ElabParams} : p.wf = true ↔ 1 ≤ p.cap ∧ p.cap ≤ Config.maxCap := by
  simp [ElabParams.wf]

/-- A legal capacity fits CAP's 24 bits. -/
theorem Encoder.elaborated_cap {p : ElabParams} (h : p.cap ≤ Config.maxCap) :
    (Encoder.elaborated p).cap.toNat = p.cap := by
  have hlt : p.cap < 2 ^ 24 := by unfold Config.maxCap at h; omega
  simp only [Encoder.elaborated, BitVec.toNat_ofNat, Nat.mod_eq_of_lt hlt]

theorem elaborateEnc_legal {p : ElabParams} (s : State) (h : p.wf = true) :
    elaborateEnc p s = .next { s with encs := s.encs ++ [Encoder.elaborated p] } := if_pos h

theorem elaborateDec_legal {p : ElabParams} (s : State) (h : p.wf = true) :
    elaborateDec p s = .next { s with decs := s.decs ++ [Decoder.elaborated p] } := if_pos h

theorem elaborateEnc_illegal {p : ElabParams} (s : State) (h : ¬ p.wf = true) :
    elaborateEnc p s = .refused .badCapacity := if_neg h

theorem elaborateDec_illegal {p : ElabParams} (s : State) (h : ¬ p.wf = true) :
    elaborateDec p s = .refused .badCapacity := if_neg h

theorem elaborateEnc_next {s t : State} {p : ElabParams} (h : elaborateEnc p s = .next t) :
    p.wf = true ∧ t = { s with encs := s.encs ++ [Encoder.elaborated p] } := by
  by_cases hp : p.wf = true
  · rw [elaborateEnc_legal s hp] at h; cases h; exact ⟨hp, rfl⟩
  · rw [elaborateEnc_illegal s hp] at h; cases h

theorem elaborateDec_next {s t : State} {p : ElabParams} (h : elaborateDec p s = .next t) :
    p.wf = true ∧ t = { s with decs := s.decs ++ [Decoder.elaborated p] } := by
  by_cases hp : p.wf = true
  · rw [elaborateDec_legal s hp] at h; cases h; exact ⟨hp, rfl⟩
  · rw [elaborateDec_illegal s hp] at h; cases h

theorem Encoder.elaborated_inv {p : ElabParams} (h : p.wf = true) : Encoder.Inv (Encoder.elaborated p) := by
  obtain ⟨hpos, hmax⟩ := ElabParams.wf_iff.mp h
  have hcap := Encoder.elaborated_cap hmax
  exact
    { base :=
        { capPos := hcap ▸ hpos
          capMax := hcap ▸ hmax
          cursorCap := Nat.zero_le _
          bufWf := rfl
          bufInside := fun _ hc => nomatch hc
          bufWritten := fun a ha => absurd ha (Nat.not_lt_zero a) }
      noDecodeError := nofun }

theorem Decoder.elaborated_inv {p : ElabParams} (h : p.wf = true) : (Decoder.elaborated p).Inv :=
  { base := (Encoder.elaborated_inv h).base
    searching := fun _ => ⟨rfl, rfl⟩
    inDelivery := nofun }

/-! ## Operations common to encoders and decoders -/

theorem Inst.clear_keeps_inv {u : Inst} (hu : u.Inv) : u.clear.Inv :=
  { hu with
    cursorCap := Nat.zero_le _
    bufWritten := fun a ha => absurd ha (Nat.not_lt_zero a) }

/-- ERR after a raise holds the new code or the old one. -/
theorem combineErr_eq_or (m : ErrCombine) (old new : ErrCode) :
    combineErr m old new = new ∨ combineErr m old new = old :=
  ite_eq_or_eq _ _ _

theorem Encoder.respond_keeps_inv {e : Encoder} (he : Encoder.Inv e) (r : Response) : Encoder.Inv (e.respond r) :=
  ⟨{ he.base with }, he.noDecodeError⟩

/-- Append raises only BUF_INSUFFICIENT (R52). -/
theorem Encoder.append_keeps_inv {e e' : Encoder} {v : Byte} (he : Encoder.Inv e) (h : e.append v = .ok e') :
    Encoder.Inv e' := by
  refine ⟨Inst.append_keeps_inv he.base h, ?_⟩
  obtain ⟨-, rfl⟩ | ⟨-, rfl⟩ := Inst.append_cases h
  · rw [Inst.raise_err]
    obtain hc | hc := combineErr_eq_or e.errCombine e.err .bufInsufficient
    · rw [hc]; decide
    · rw [hc]; exact he.noDecodeError
  · exact he.noDecodeError

/-! ## Encoder commands -/

/-- Everything ENC.FEED can do when it completes: one append of the byte, or an append of ESC and one of the index. -/
theorem feedEncoder_cases {b : Byte} {e e' : Encoder} (h : feedEncoder b e = .ok e') :
    (encLut e.lut b = none ∧ ∃ e1, e.append b = .ok e1 ∧ e' = e1.respond .ack) ∨
    (∃ i e1 e2, encLut e.lut b = some i ∧ e.append e.lut.esc = .ok e1 ∧ e1.append i = .ok e2 ∧
      e' = e2.respond .ack) := by
  unfold feedEncoder at h
  split at h
  · next i hi =>
    split at h
    · next e1 h1 =>
      split at h
      · next e2 h2 => cases h; exact .inr ⟨i, e1, e2, hi, h1, h2, rfl⟩
      · cases h
    · cases h
  · next hi =>
    split at h
    · next e1 h1 => cases h; exact .inl ⟨hi, e1, h1, rfl⟩
    · cases h

/-- ENC.GETRESULT does nothing but respond. -/
theorem readEncoder_responds {null : Bool} {dcap : Count} {e e' : Encoder} (h : readEncoder null dcap e = .ok e') :
    ∃ r, e' = e.respond r := by
  unfold readEncoder at h
  split at h
  · cases h; exact ⟨_, rfl⟩
  · split at h
    · cases h; exact ⟨_, rfl⟩
    · cases h

theorem feedEncoder_keeps_inv {b : Byte} {e e' : Encoder} (he : Encoder.Inv e) (h : feedEncoder b e = .ok e') :
    Encoder.Inv e' := by
  obtain ⟨-, e1, h1, rfl⟩ | ⟨i, e1, e2, -, h1, h2, rfl⟩ := feedEncoder_cases h
  · exact Encoder.respond_keeps_inv (Encoder.append_keeps_inv he h1) _
  · exact Encoder.respond_keeps_inv (Encoder.append_keeps_inv (Encoder.append_keeps_inv he h1) h2) _

theorem resetEncoder_keeps_inv {e e' : Encoder} (he : Encoder.Inv e) (h : resetEncoder e = .ok e') : Encoder.Inv e' := by
  cases h
  exact Encoder.respond_keeps_inv ⟨Inst.clear_keeps_inv he.base, nofun⟩ _

theorem sizeEncoder_keeps_inv {e e' : Encoder} (he : Encoder.Inv e) (h : sizeEncoder e = .ok e') : Encoder.Inv e' := by
  cases h
  exact Encoder.respond_keeps_inv he _

theorem readEncoder_keeps_inv {null : Bool} {dcap : Count} {e e' : Encoder} (he : Encoder.Inv e)
    (h : readEncoder null dcap e = .ok e') : Encoder.Inv e' := by
  obtain ⟨r, rfl⟩ := readEncoder_responds h
  exact Encoder.respond_keeps_inv he r

theorem statusEncoder_keeps_inv {e e' : Encoder} (he : Encoder.Inv e) (h : statusEncoder e = .ok e') :
    Encoder.Inv e' := by
  cases h
  exact Encoder.respond_keeps_inv he _

/-! ## Decoder commands -/

/-- A decoder inside a frame, with no delivery in progress, is good when its common state is. -/
theorem Decoder.inFrame_inv {d : Decoder} (hu : d.toInst.Inv) (hf : d.fsm ≠ .sfs) (hn : d.delivering = false) : d.Inv :=
  { base := hu
    searching := fun h => absurd h hf
    inDelivery := fun h => absurd h (by simp [hn]) }

/-- A command may end when no delivery is in progress. -/
theorem Decoder.respond_keeps_inv {d : Decoder} (hd : d.Inv) (hn : d.delivering = false) (r : Response) :
    (d.respond r).Inv :=
  { base := { hd.base with }
    searching := hd.searching
    inDelivery := fun h => absurd h (by simp [hn]) }

/-- A decoder just cleared is good, whatever FSM, CURSOR and ERR were. -/
theorem Decoder.clear_inv {d : Decoder} (hu : d.toInst.Inv) (hn : d.delivering = false) : d.clear.Inv :=
  { base := Inst.clear_keeps_inv hu
    searching := fun _ => ⟨rfl, rfl⟩
    inDelivery := fun h => absurd h (by simp [hn]) }

theorem Decoder.endFrame_inv {d : Decoder} (hu : d.toInst.Inv) (hn : d.delivering = false) : d.endFrame.Inv :=
  Decoder.respond_keeps_inv (Decoder.clear_inv hu hn) hn _

theorem finishDelivery_inv {d : Decoder} (hd : d.Inv) : (finishDelivery d).Inv :=
  Decoder.endFrame_inv (d := { d with delivering := false }) hd.base rfl

/-- Everything a completed frame can do: a delivery to a prompt consumer and the implicit reset, a delivery that a holding
consumer keeps open, or the implicit reset alone. -/
theorem completeFrame_cases {d d' : Decoder} (h : completeFrame d = .ok d') :
    (∃ vs, d.cbEn = true ∧ d.toInst.memRead 0 d.cursor.toNat = .ok vs ∧
      ((d.consumer = .prompt ∧ d' = Decoder.endFrame { d with toInst := d.toInst.deliver vs d.cursor d.err }) ∨
        (d.consumer = .holding ∧
          d' = { d with toInst := d.toInst.deliver vs d.cursor d.err, delivering := true }))) ∨
    (d.cbEn = false ∧ d' = d.endFrame) := by
  unfold completeFrame at h
  split at h
  · next hcb =>
    split at h
    · next vs hvs =>
      refine .inl ⟨vs, hcb, hvs, ?_⟩
      cases hc : d.consumer with
      | prompt => simp only [hc] at h; cases h; exact .inl ⟨rfl, rfl⟩
      | holding => simp only [hc] at h; cases h; exact .inr ⟨rfl, rfl⟩
    · cases h
  · next hcb => cases h; exact .inr ⟨by simpa using hcb, rfl⟩

/-- An EOF in RP keeps a decoder good. A delivery held open needs the command's word to be outstanding. -/
theorem completeFrame_keeps_inv {d d' : Decoder} (hd : d.Inv) (hf : d.fsm = .rp) (hn : d.delivering = false)
    (hcmd : d.cmd.isSome = true) (h : completeFrame d = .ok d') : d'.Inv := by
  obtain ⟨vs, hcb, -, ⟨-, rfl⟩ | ⟨-, rfl⟩⟩ | ⟨-, rfl⟩ := completeFrame_cases h
  · exact Decoder.endFrame_inv { hd.base with } hn
  · exact
      { base := { hd.base with }
        searching := hd.searching
        inDelivery := fun _ => ⟨hf, hcb, hcmd⟩ }
  · exact Decoder.endFrame_inv hd.base hn

theorem feedSearching_keeps_inv {b : Byte} {d d' : Decoder} (hd : d.Inv) (hn : d.delivering = false)
    (h : feedSearching b d = .ok d') : d'.Inv := by
  unfold feedSearching at h
  split at h
  · cases h
    have hrp : Decoder.Inv { d with fsm := .rp } := Decoder.inFrame_inv hd.base nofun hn
    exact Decoder.respond_keeps_inv hrp hn _
  · cases h; exact Decoder.respond_keeps_inv hd hn _

theorem feedPayload_keeps_inv {b : Byte} {d d' : Decoder} (hd : d.Inv) (hf : d.fsm = .rp) (hn : d.delivering = false)
    (hcmd : d.cmd.isSome = true) (h : feedPayload b d = .ok d') : d'.Inv := by
  unfold feedPayload at h
  split at h
  · exact completeFrame_keeps_inv hd hf hn hcmd h
  · split at h
    · cases h
      have hreb : Decoder.Inv { d with fsm := .reb } := Decoder.inFrame_inv hd.base nofun hn
      exact Decoder.respond_keeps_inv hreb hn _
    · split at h
      · next d1 h1 =>
        cases h
        obtain ⟨u, hu, rfl⟩ := Decoder.append_ok h1
        have hrp : Decoder.Inv { d with toInst := u } :=
          Decoder.inFrame_inv (Inst.append_keeps_inv hd.base hu) (by simp [hf]) hn
        exact Decoder.respond_keeps_inv hrp hn _
      · cases h

theorem feedEscaped_keeps_inv {b : Byte} {d d' : Decoder} (hd : d.Inv) (hn : d.delivering = false)
    (h : feedEscaped b d = .ok d') : d'.Inv := by
  unfold feedEscaped at h
  split at h
  · split at h
    · next d1 h1 =>
      cases h
      obtain ⟨u, hu, rfl⟩ := Decoder.append_ok h1
      have hrp : Decoder.Inv { d with toInst := u, fsm := .rp } :=
        Decoder.inFrame_inv (Inst.append_keeps_inv hd.base hu) nofun hn
      exact Decoder.respond_keeps_inv hrp hn _
    · cases h
  · cases h
    have hrp : Decoder.Inv { d with toInst := d.toInst.raise .decodeError, fsm := .rp } :=
      Decoder.inFrame_inv { hd.base with } nofun hn
    exact Decoder.respond_keeps_inv hrp hn _

theorem feedDecoder_keeps_inv {b : Byte} {d d' : Decoder} (hd : d.Inv) (hn : d.delivering = false)
    (hcmd : d.cmd.isSome = true) (h : feedDecoder b d = .ok d') : d'.Inv := by
  unfold feedDecoder at h
  split at h
  · exact feedSearching_keeps_inv hd hn h
  · next hf => exact feedPayload_keeps_inv hd hf hn hcmd h
  · exact feedEscaped_keeps_inv hd hn h

theorem resetDecoder_keeps_inv {d d' : Decoder} (hd : d.Inv) (hn : d.delivering = false)
    (h : resetDecoder d = .ok d') : d'.Inv := by
  cases h
  exact Decoder.endFrame_inv hd.base hn

theorem setcbDecoder_keeps_inv {off : Bool} {d d' : Decoder} (hd : d.Inv) (hn : d.delivering = false)
    (h : setcbDecoder off d = .ok d') : d'.Inv := by
  cases h
  have hcb : Decoder.Inv { d with cbEn := !off } :=
    { base := hd.base
      searching := hd.searching
      inDelivery := fun h => absurd h (by simp [hn]) }
  exact Decoder.respond_keeps_inv hcb hn _

theorem statusDecoder_keeps_inv {d d' : Decoder} (hd : d.Inv) (hn : d.delivering = false)
    (h : statusDecoder d = .ok d') : d'.Inv := by
  cases h
  exact Decoder.respond_keeps_inv hd hn _

/-! ## The state -/

theorem onEncoder_keeps_inv {s t : State} {f : Encoder → Except Fault Encoder} (hs : s.Inv)
    (hf : ∀ {e e'}, Encoder.Inv e → f e = .ok e' → Encoder.Inv e') (h : onEncoder s f = .next t) : t.Inv := by
  obtain ⟨e, e', he, hfe, rfl⟩ := onEncoder_next h
  exact ⟨forall_mem_set hs.encs (hf (hs.encs e (List.mem_of_getElem? he)) hfe), hs.decs⟩

/-- A decoder command's function is called only with no delivery in progress. -/
theorem onDecoder_keeps_inv {s t : State} {f : Decoder → Except Fault Decoder} (hs : s.Inv)
    (hf : ∀ {d d'}, s.dec? = some d → d.Inv → d.delivering = false → f d = .ok d' → d'.Inv)
    (h : onDecoder s f = .next t) : t.Inv := by
  obtain ⟨d, d', hd, hn, hfd, rfl⟩ := onDecoder_next h
  exact ⟨hs.encs, forall_mem_set hs.decs (hf hd (hs.decs d (List.mem_of_getElem? hd)) hn hfd)⟩

/-- Every command keeps the state good. A decoder command must stand on its port while it is carried out. -/
theorem exec_keeps_inv {s t : State} {i : Instr} (hs : s.Inv)
    (hcmd : i.unit = .dec → ∀ d, s.dec? = some d → d.cmd.isSome = true) (h : exec i s = .next t) : t.Inv := by
  cases i with
  | encFeed b => exact onEncoder_keeps_inv hs feedEncoder_keeps_inv h
  | encReset => exact onEncoder_keeps_inv hs resetEncoder_keeps_inv h
  | encSize => exact onEncoder_keeps_inv hs sizeEncoder_keeps_inv h
  | encGetresult null dcap => exact onEncoder_keeps_inv hs readEncoder_keeps_inv h
  | encStatus => exact onEncoder_keeps_inv hs statusEncoder_keeps_inv h
  | decFeed b => exact onDecoder_keeps_inv hs (fun hd hi hn => feedDecoder_keeps_inv hi hn (hcmd rfl _ hd)) h
  | decReset => exact onDecoder_keeps_inv hs (fun _ => resetDecoder_keeps_inv) h
  | decSetcb off => exact onDecoder_keeps_inv hs (fun _ => setcbDecoder_keeps_inv) h
  | decStatus => exact onDecoder_keeps_inv hs (fun _ => statusDecoder_keeps_inv) h

theorem State.accept_keeps_inv {s : State} (hs : s.Inv) (p : Port) (w : Word) : (s.accept p w).Inv := by
  cases p with
  | enc k => exact ⟨forall_mem_modify hs.encs fun _ _ he => ⟨{ he.base with }, he.noDecodeError⟩, hs.decs⟩
  | dec k => exact ⟨hs.encs, forall_mem_modify hs.decs fun _ _ hd => { hd with base := { hd.base with } }⟩

theorem State.putCmd_keeps_inv {s : State} (hs : s.Inv) (p : Port) (w : Word) : (s.putCmd p w).Inv := by
  cases p with
  | enc k => exact ⟨forall_mem_modify hs.encs fun _ _ he => ⟨{ he.base with }, he.noDecodeError⟩, hs.decs⟩
  | dec k =>
    refine ⟨hs.encs, forall_mem_modify hs.decs fun _ _ hd =>
      { hd with base := { hd.base with }, inDelivery := fun h => ?_ }⟩
    obtain ⟨hf, hcb, -⟩ := hd.inDelivery h
    exact ⟨hf, hcb, rfl⟩

theorem State.respondIllegal_keeps_inv {s : State} (hs : s.Inv) {p : Port} (hn : s.deliveringAt p = false) :
    (s.respondIllegal p).Inv := by
  cases p with
  | enc k => exact ⟨forall_mem_modify hs.encs fun _ _ he => Encoder.respond_keeps_inv he _, hs.decs⟩
  | dec k =>
    exact ⟨hs.encs, forall_mem_modify hs.decs fun d hk hd =>
      Decoder.respond_keeps_inv hd (State.deliveringAt_dec hk ▸ hn) _⟩

/-! ## Moves -/

theorem decodeEnc_unit {op : BitVec 3} {n : Bool} {opnd : BitVec 24} {i : Instr} (h : decodeEnc op n opnd = some i) :
    i.unit = .enc := by
  unfold decodeEnc at h
  split_ifs at h <;> cases h <;> rfl

theorem decodeDec_unit {op : BitVec 3} {n : Bool} {opnd : BitVec 24} {i : Instr} (h : decodeDec op n opnd = some i) :
    i.unit = .dec := by
  unfold decodeDec at h
  split_ifs at h <;> cases h <;> rfl

/-- A word decodes on a port only to a command of the port's unit (R75). -/
theorem decode_unit {u : UnitKind} {w : Word} {i : Instr} (h : decode u w = some i) : i.unit = u := by
  unfold decode at h
  split at h
  · cases h
  · cases u with
    | enc => exact decodeEnc_unit h
    | dec => exact decodeDec_unit h

theorem runPort_keeps_inv {s t : State} {p : Port} (hs : s.Inv) (h : runPort p s = .next t) : t.Inv := by
  obtain rfl | ⟨w, hw, hn, ⟨i, hi, hexec⟩ | ⟨-, rfl⟩⟩ := runPort_next h
  · exact hs
  · refine exec_keeps_inv (State.accept_keeps_inv hs p w) (fun hu d hd => ?_) hexec
    cases p with
    | enc k => rw [decode_unit hi] at hu; cases hu
    | dec k => rw [State.accept_dec?_cmd hw hd]; rfl
  · exact State.respondIllegal_keeps_inv (State.accept_keeps_inv hs p w) (by simpa using hn)

theorem finishConsumer_keeps_inv {s t : State} {k : Nat} (hs : s.Inv) (h : finishConsumer k s = .next t) : t.Inv := by
  obtain ⟨d, hd, ⟨-, rfl⟩ | ⟨-, rfl⟩⟩ := finishConsumer_next h
  · exact ⟨hs.encs, forall_mem_set hs.decs (finishDelivery_inv (hs.decs d (List.mem_of_getElem? hd)))⟩
  · exact hs

theorem attachConsumer_keeps_inv {s t : State} {k : Nat} {c : Consumer} (hs : s.Inv)
    (h : attachConsumer k c s = .next t) : t.Inv := by
  obtain ⟨d, hd, rfl⟩ := attachConsumer_next h
  exact ⟨hs.encs, forall_mem_set hs.decs { hs.decs d (List.mem_of_getElem? hd) with }⟩

theorem doMove_keeps_inv {s t : State} {m : Move} (hs : s.Inv) (h : doMove m s = .next t) : t.Inv := by
  cases m with
  | elabEnc p =>
    obtain ⟨hp, rfl⟩ := elaborateEnc_next h
    exact ⟨List.forall_mem_append.mpr ⟨hs.encs, List.forall_mem_singleton.mpr (Encoder.elaborated_inv hp)⟩, hs.decs⟩
  | elabDec p =>
    obtain ⟨hp, rfl⟩ := elaborateDec_next h
    exact ⟨hs.encs, List.forall_mem_append.mpr ⟨hs.decs, List.forall_mem_singleton.mpr (Decoder.elaborated_inv hp)⟩⟩
  | issue p w =>
    obtain ⟨-, -, rfl⟩ := issueCmd_next h
    exact State.putCmd_keeps_inv hs p w
  | run p => exact runPort_keeps_inv hs h
  | finish k => exact finishConsumer_keeps_inv hs h
  | attach k c => exact attachConsumer_keeps_inv hs h

/-! ## The obligations -/

/-- Settles O19: a step is an idle one or a move, and each kind of move keeps all encoders and decoders good. -/
theorem stepKeepsStateGood : Obligations.StepKeepsStateGood := by
  unfold Obligations.StepKeepsStateGood
  intro s t hs h
  cases hsched : s.sched with
  | nil =>
    rw [step_nil hsched] at h
    cases h
    exact hs
  | cons m ms =>
    rw [step_cons hsched] at h
    have htaken : State.Inv { s with sched := ms } := ⟨hs.encs, hs.decs⟩
    exact doMove_keeps_inv htaken h

/-- Settles O11: the run of a port with a word that decodes, on an encoder and on a decoder. -/
theorem stepRunsTheDecodedCommand : Obligations.StepRunsTheDecodedCommand := by
  unfold Obligations.StepRunsTheDecodedCommand
  constructor
  · intro s k ms e w i hs he hw hi
    have ho : State.outstanding { s with sched := ms } (.enc k) = some (some w) := hw ▸ State.outstanding_enc he
    calc step s = runPort (.enc k) { s with sched := ms } := step_cons hs
      _ = exec i (State.accept { s with sched := ms } (.enc k) w) := runPort_decoded ho rfl hi
      _ = _ := congrArg (exec i) (State.accept_enc w he)
  · intro s k ms d w i hs hd hw hn hi
    have ho : State.outstanding { s with sched := ms } (.dec k) = some (some w) := hw ▸ State.outstanding_dec hd
    have hidle : State.deliveringAt { s with sched := ms } (.dec k) = false := hn ▸ State.deliveringAt_dec hd
    calc step s = runPort (.dec k) { s with sched := ms } := step_cons hs
      _ = exec i (State.accept { s with sched := ms } (.dec k) w) := runPort_decoded ho hidle hi
      _ = _ := congrArg (exec i) (State.accept_dec w hd)

/-- Settles O15: the idle step and the idle run of a port. -/
theorem idleBlockKeepsItsState : Obligations.IdleBlockKeepsItsState := by
  unfold Obligations.IdleBlockKeepsItsState
  refine ⟨fun s hs => step_nil hs, fun s p ms hs ho => ?_⟩
  have hidle : State.outstanding { s with sched := ms } p = some none := by cases p <;> exact ho
  exact (step_cons hs).trans (runPort_idle hidle)

/-- Settles O16: the two elaborations with a legal capacity, and both with an illegal one. -/
theorem elaborationGivesResetValues : Obligations.ElaborationGivesResetValues := by
  unfold Obligations.ElaborationGivesResetValues
  refine ⟨fun s p ms hs hpos hmax => ?_, fun s p ms hs hpos hmax => ?_, fun s p ms hs hbad => ?_⟩
  · exact ⟨Encoder.elaborated p, (step_cons hs).trans (elaborateEnc_legal _ (ElabParams.wf_iff.mpr ⟨hpos, hmax⟩)),
      rfl, rfl, Memory.read_nil, rfl, Encoder.elaborated_cap hmax, rfl, rfl, rfl⟩
  · exact ⟨Decoder.elaborated p, (step_cons hs).trans (elaborateDec_legal _ (ElabParams.wf_iff.mpr ⟨hpos, hmax⟩)),
      rfl, rfl, rfl, rfl, Memory.read_nil, rfl, Encoder.elaborated_cap hmax, rfl, rfl, rfl, rfl, rfl⟩
  · have hwf : ¬ p.wf = true := fun h => by
      have hcap := ElabParams.wf_iff.mp h
      unfold Config.maxCap at hcap
      omega
    obtain hs | hs := hs
    · exact (step_cons hs).trans (elaborateEnc_illegal _ hwf)
    · exact (step_cons hs).trans (elaborateDec_illegal _ hwf)

/-- Settles O18: the instances of State.reset are elaborated with Config.resetParams. -/
theorem resetStateIsElaborated : Obligations.ResetStateIsElaborated := by
  unfold Obligations.ResetStateIsElaborated
  have hcap : (Encoder.elaborated Config.resetParams).cap.toNat = 2 ^ 24 - 3 := Encoder.elaborated_cap le_rfl
  exact ⟨⟨Encoder.elaborated Config.resetParams, rfl, rfl, rfl, Memory.read_nil, rfl, hcap, rfl, rfl, rfl⟩,
    ⟨Decoder.elaborated Config.resetParams, rfl, rfl, rfl, rfl, rfl, Memory.read_nil, rfl, hcap, rfl, rfl, rfl, rfl, rfl⟩,
    rfl⟩

end Sys2Proof.Machine
end

section
/-! PROOFS. A command as a function on its encoder or decoder: which function carries it out, what that function can answer,
that it completes, and which part of the encoder or decoder it depends on. -/

namespace Sys2Proof.Machine

/-! ## Which function carries out a command -/

/-- The function on one encoder that carries out an encoder command (R106 to R115). -/
inductive EncMeaning : Instr → (Encoder → Except Fault Encoder) → Prop where
  | feed (b : Byte) : EncMeaning (.encFeed b) (feedEncoder b)
  | reset : EncMeaning .encReset resetEncoder
  | size : EncMeaning .encSize sizeEncoder
  | getresult (null : Bool) (dcap : Count) : EncMeaning (.encGetresult null dcap) (readEncoder null dcap)
  | status : EncMeaning .encStatus statusEncoder

/-- The function on one decoder that carries out a decoder command (R124 to R136). -/
inductive DecMeaning : Instr → (Decoder → Except Fault Decoder) → Prop where
  | feed (b : Byte) : DecMeaning (.decFeed b) (feedDecoder b)
  | reset : DecMeaning .decReset resetDecoder
  | setcb (off : Bool) : DecMeaning (.decSetcb off) (setcbDecoder off)
  | status : DecMeaning .decStatus statusDecoder

theorem EncMeaning.exec_eq {i : Instr} {f : Encoder → Except Fault Encoder} (hf : EncMeaning i f) (s : State) :
    exec i s = onEncoder s f := by
  cases hf <;> rfl

theorem DecMeaning.exec_eq {i : Instr} {f : Decoder → Except Fault Decoder} (hf : DecMeaning i f) (s : State) :
    exec i s = onDecoder s f := by
  cases hf <;> rfl

theorem exists_encMeaning {i : Instr} (hi : i.unit = .enc) : ∃ f, EncMeaning i f := by
  cases i with
  | encFeed b => exact ⟨_, .feed b⟩
  | encReset => exact ⟨_, .reset⟩
  | encSize => exact ⟨_, .size⟩
  | encGetresult null dcap => exact ⟨_, .getresult null dcap⟩
  | encStatus => exact ⟨_, .status⟩
  | decFeed | decReset | decSetcb | decStatus => cases hi

theorem exists_decMeaning {i : Instr} (hi : i.unit = .dec) : ∃ f, DecMeaning i f := by
  cases i with
  | decFeed b => exact ⟨_, .feed b⟩
  | decReset => exact ⟨_, .reset⟩
  | decSetcb off => exact ⟨_, .setcb off⟩
  | decStatus => exact ⟨_, .status⟩
  | encFeed | encReset | encSize | encGetresult | encStatus => cases hi

/-- Every command is one of its unit's (R75). -/
theorem encMeaning_or_decMeaning (i : Instr) : (∃ f, EncMeaning i f) ∨ (∃ f, DecMeaning i f) := by
  cases hi : i.unit with
  | enc => exact .inl (exists_encMeaning hi)
  | dec => exact .inr (exists_decMeaning hi)

/-- What an encoder command does to the selected encoder when it answers a next state. -/
theorem onEncoder_next_of {s t : State} {f : Encoder → Except Fault Encoder} {e : Encoder} (he : s.enc? = some e)
    (h : onEncoder s f = .next t) : ∃ e', f e = .ok e' ∧ t = s.setEnc e' := by
  obtain ⟨e0, e', he0, hf, ht⟩ := onEncoder_next h
  obtain rfl : e = e0 := Option.some.inj (he.symm.trans he0)
  exact ⟨e', hf, ht⟩

/-- What a decoder command does to the selected decoder when it answers a next state. -/
theorem onDecoder_next_of {s t : State} {f : Decoder → Except Fault Decoder} {d : Decoder} (hd : s.dec? = some d)
    (h : onDecoder s f = .next t) : ∃ d', d.delivering = false ∧ f d = .ok d' ∧ t = s.setDec d' := by
  obtain ⟨d0, d', hd0, hidle, hf, ht⟩ := onDecoder_next h
  obtain rfl : d = d0 := Option.some.inj (hd.symm.trans hd0)
  exact ⟨d', hidle, hf, ht⟩

/-! ## What appends and raises change -/

/-- The common state v is u after appends and raises: the parameters and the ports are the same, CURSOR has not gone down, only
bytes from the old CURSOR up to the new one have changed, and an error has not gone away. -/
structure Inst.Extends (u v : Inst) : Prop where
  lut        : v.lut = u.lut
  cap        : v.cap = u.cap
  errCombine : v.errCombine = u.errCombine
  cmd        : v.cmd = u.cmd
  obs        : v.obs = u.obs
  grows      : u.cursor.toNat ≤ v.cursor.toNat
  outside    : ∀ a, ¬ (u.cursor.toNat ≤ a ∧ a < v.cursor.toNat) → Memory.read v.buf a = Memory.read u.buf a
  errStays   : v.err = .noError → u.err = .noError

theorem Inst.Extends.refl (u : Inst) : u.Extends u :=
  ⟨rfl, rfl, rfl, rfl, rfl, le_rfl, fun _ _ => rfl, id⟩

theorem Inst.Extends.trans {u v w : Inst} (h : u.Extends v) (h' : v.Extends w) : u.Extends w :=
  { lut := h'.lut.trans h.lut
    cap := h'.cap.trans h.cap
    errCombine := h'.errCombine.trans h.errCombine
    cmd := h'.cmd.trans h.cmd
    obs := h'.obs.trans h.obs
    grows := h.grows.trans h'.grows
    outside := fun a ha => by
      have hgrows := h.grows
      have hgrows' := h'.grows
      rw [h'.outside a (by omega), h.outside a (by omega)]
    errStays := fun he => h.errStays (h'.errStays he) }

theorem Inst.raise_extends (u : Inst) {c : ErrCode} (hc : c ≠ .noError) : u.Extends (u.raise c) :=
  { Inst.Extends.refl u with
    errStays := fun he => by
      rw [Inst.raise_err] at he
      obtain h | h := combineErr_eq_or u.errCombine u.err c
      · exact absurd (h.symm.trans he) hc
      · exact h.symm.trans he }

theorem Inst.append_extends {u u' : Inst} {v : Byte} (h : u.append v = .ok u') : u.Extends u' := by
  obtain ⟨-, rfl⟩ | ⟨hlt, rfl⟩ := Inst.append_cases h
  · exact u.raise_extends (by decide)
  · exact
      { Inst.Extends.refl u with
        grows := by simp only [Inst.cursor_succ hlt]; omega
        outside := fun a ha => Memory.read_write_other _ _ fun he => ha (by
          simp only [Inst.cursor_succ hlt]; omega) }

/-- Append moves CURSOR by one, at most to CAP (R51, R52). -/
theorem Inst.append_cursor {u u' : Inst} {v : Byte} (h : u.append v = .ok u') :
    u'.cursor.toNat = min (u.cursor.toNat + 1) u.cap.toNat := by
  obtain ⟨hfull, rfl⟩ | ⟨hlt, rfl⟩ := Inst.append_cases h
  · simp [hfull]
  · simp only [Inst.cursor_succ hlt]; omega

/-! ## What a command can answer -/

/-- ENC.FEED appends the wire unit of its byte, as far as there is room (R68, R106). -/
theorem feedEncoder_next {b : Byte} {e e' : Encoder} (h : feedEncoder b e = .ok e') :
    ∃ u, e.Extends u ∧ u.cursor.toNat = min (e.cursor.toNat + (wireUnit e.lut b).length) e.cap.toNat ∧
      e' = u.respond .ack := by
  obtain ⟨hb, u, hu, rfl⟩ | ⟨i, v, u, hb, hv, hu, rfl⟩ := feedEncoder_cases h
  · exact ⟨u, Inst.append_extends hu, by simp [wireUnit, hb, Inst.append_cursor hu], rfl⟩
  · have hext := Inst.append_extends hv
    refine ⟨u, hext.trans (Inst.append_extends hu), ?_, rfl⟩
    simp only [wireUnit, hb, List.length_cons, List.length_nil, Inst.append_cursor hu, Inst.append_cursor hv, hext.cap]
    omega

/-- Everything an encoder command can do when it completes. -/
theorem EncMeaning.next {i : Instr} {f : Encoder → Except Fault Encoder} {e e' : Encoder} (hf : EncMeaning i f)
    (h : f e = .ok e') :
    (∃ b u, i = .encFeed b ∧ e.Extends u ∧
      u.cursor.toNat = min (e.cursor.toNat + (wireUnit e.lut b).length) e.cap.toNat ∧ e' = u.respond .ack) ∨
    (i = .encReset ∧ e' = (Inst.clear e).respond .ack) ∨
    ((i = .encSize ∨ i = .encStatus ∨ ∃ n c, i = .encGetresult n c) ∧ ∃ r, e' = e.respond r) := by
  cases hf with
  | feed b =>
    obtain ⟨u, hu, hcur, rfl⟩ := feedEncoder_next h
    exact .inl ⟨b, u, rfl, hu, hcur, rfl⟩
  | reset => cases h; exact .inr (.inl ⟨rfl, rfl⟩)
  | size => cases h; exact .inr (.inr ⟨.inl rfl, _, rfl⟩)
  | getresult null dcap => exact .inr (.inr ⟨.inr (.inr ⟨null, dcap, rfl⟩), readEncoder_responds h⟩)
  | status => cases h; exact .inr (.inr ⟨.inr (.inl rfl), _, rfl⟩)

/-- What a row of the transition table (R124) does to the decoder, told apart from the conditions under which it applies. -/
inductive FeedRow where
  /-- Row 3: the frame is complete (R126). -/
  | frameEnd
  /-- Rows 1, 2 and 4: nothing but the next state (R127, R128). -/
  | moveTo (f : Fsm)
  /-- Rows 5 to 8: a payload byte, and on in RP (R129, R130). -/
  | payload (m : Byte)
  /-- Row 9: a byte that is no escape index (R131). -/
  | badIndex

/-- The row that applies to a byte. -/
def feedRow (t : Lut) (f : Fsm) (b : Byte) : FeedRow :=
  match f with
  | .sfs => .moveTo (if b = t.sof then .rp else .sfs)
  | .rp => if b = t.eof then .frameEnd else if b = t.esc then .moveTo .reb else .payload b
  | .reb =>
    match decLut t b with
    | some m => .payload m
    | none => .badIndex

/-- The row carried out. -/
def FeedRow.perform : FeedRow → Decoder → Except Fault Decoder
  | .frameEnd, d => completeFrame d
  | .moveTo f, d => .ok (Decoder.respond { d with fsm := f } .ack)
  | .payload m, d => (d.toInst.append m).map fun u => Decoder.respond { d with toInst := u, fsm := .rp } .ack
  | .badIndex, d => .ok (Decoder.respond { d with toInst := d.toInst.raise .decodeError, fsm := .rp } .ack)

theorem FeedRow.perform_payload {d : Decoder} {m : Byte} {u : Inst} (hu : d.toInst.append m = .ok u) :
    (FeedRow.payload m).perform d = .ok (Decoder.respond { d with toInst := u, fsm := .rp } .ack) := by
  rw [FeedRow.perform, hu]
  rfl

theorem FeedRow.perform_payload_next {d d' : Decoder} {m : Byte} (h : (FeedRow.payload m).perform d = .ok d') :
    ∃ u, d.toInst.append m = .ok u ∧ d' = Decoder.respond { d with toInst := u, fsm := .rp } .ack := by
  cases hu : d.toInst.append m with
  | error r => rw [FeedRow.perform, hu] at h; cases h
  | ok u => rw [FeedRow.perform_payload hu] at h; cases h; exact ⟨u, rfl, rfl⟩

/-- DEC.FEED carries out the row that applies. -/
theorem feedDecoder_eq_perform (b : Byte) (d : Decoder) : feedDecoder b d = (feedRow d.lut d.fsm b).perform d := by
  obtain ⟨u, fsm, cbEn, consumer, delivering⟩ := d
  cases fsm with
  | sfs =>
    simp only [feedDecoder, feedSearching, feedRow]
    split <;> rfl
  | rp =>
    simp only [feedDecoder, feedPayload, feedRow]
    split
    · rfl
    · split
      · rfl
      · simp only [Decoder.append, FeedRow.perform]
        cases u.append b <;> rfl
  | reb =>
    simp only [feedDecoder, feedEscaped, feedRow]
    cases decLut u.lut b with
    | none => rfl
    | some m =>
      simp only [Decoder.append, FeedRow.perform]
      cases u.append m <;> rfl

/-- Only EOF in RP ends a frame. -/
theorem feedRow_frameEnd {t : Lut} {f : Fsm} {b : Byte} (h : feedRow t f b = .frameEnd) : f = .rp ∧ b = t.eof := by
  cases f with
  | sfs => cases h
  | rp =>
    simp only [feedRow] at h
    split at h
    · next hb => exact ⟨rfl, hb⟩
    · split at h <;> cases h
  | reb =>
    simp only [feedRow] at h
    split at h <;> cases h

/-- Everything DEC.FEED can do when it completes: the end of a frame, or at most one byte and an ACK. -/
theorem feedDecoder_next {b : Byte} {d d' : Decoder} (h : feedDecoder b d = .ok d') :
    (b = d.lut.eof ∧ d.fsm = .rp ∧ completeFrame d = .ok d') ∨
    (∃ u f, d.toInst.Extends u ∧ u.cursor.toNat ≤ d.cursor.toNat + 1 ∧
      d' = Decoder.respond { d with toInst := u, fsm := f } .ack) := by
  rw [feedDecoder_eq_perform] at h
  cases hrow : feedRow d.lut d.fsm b with
  | frameEnd =>
    obtain ⟨hf, hb⟩ := feedRow_frameEnd hrow
    rw [hrow] at h
    exact .inl ⟨hb, hf, h⟩
  | moveTo f =>
    rw [hrow] at h
    cases h
    exact .inr ⟨_, f, .refl _, Nat.le_succ _, rfl⟩
  | payload m =>
    rw [hrow] at h
    obtain ⟨u, hu, rfl⟩ := FeedRow.perform_payload_next h
    exact .inr ⟨u, .rp, Inst.append_extends hu, Inst.append_cursor hu ▸ min_le_left _ _, rfl⟩
  | badIndex =>
    rw [hrow] at h
    cases h
    exact .inr ⟨_, .rp, d.toInst.raise_extends (by decide), Nat.le_succ _, rfl⟩

/-- Everything a decoder command can do when it completes. -/
theorem DecMeaning.next {i : Instr} {f : Decoder → Except Fault Decoder} {d d' : Decoder} (hf : DecMeaning i f)
    (h : f d = .ok d') :
    (i = .decFeed d.lut.eof ∧ d.fsm = .rp ∧ completeFrame d = .ok d') ∨
    (∃ b u fsm, i = .decFeed b ∧ d.toInst.Extends u ∧ u.cursor.toNat ≤ d.cursor.toNat + 1 ∧
      d' = Decoder.respond { d with toInst := u, fsm := fsm } .ack) ∨
    (i = .decReset ∧ d' = d.endFrame) ∨
    (∃ off, i = .decSetcb off ∧ d' = Decoder.respond { d with cbEn := !off } .ack) ∨
    (i = .decStatus ∧ ∃ r, d' = d.respond r) := by
  cases hf with
  | feed b =>
    obtain ⟨rfl, hrp, hframe⟩ | ⟨u, fsm, hu, hcur, rfl⟩ := feedDecoder_next h
    · exact .inl ⟨rfl, hrp, hframe⟩
    · exact .inr (.inl ⟨b, u, fsm, rfl, hu, hcur, rfl⟩)
  | reset => cases h; exact .inr (.inr (.inl ⟨rfl, rfl⟩))
  | setcb off => cases h; exact .inr (.inr (.inr (.inl ⟨off, rfl, rfl⟩)))
  | status => cases h; exact .inr (.inr (.inr (.inr ⟨rfl, _, rfl⟩)))

/-! ## A command completes -/

/-- What a command needs in order to complete: CURSOR is at most CAP (R36) and every byte below it has a value (R44). Good
instances have it (Inst.Inv), and so have all that are just reset, whatever their CAP. -/
structure Inst.Filled (u : Inst) : Prop where
  cursorCap  : u.cursor.toNat ≤ u.cap.toNat
  bufWritten : ∀ a, a < u.cursor.toNat → (Memory.read u.buf a).isSome = true

theorem Inst.Inv.filled {u : Inst} (h : u.Inv) : u.Filled := ⟨h.cursorCap, h.bufWritten⟩

theorem Inst.filled_of_cursor_zero {u : Inst} (h : u.cursor = 0#24) : u.Filled :=
  ⟨by simp [h], fun a ha => by simp [h] at ha⟩

theorem Inst.Filled.append {u u' : Inst} {v : Byte} (h : u.Filled) (hu : u.append v = .ok u') : u'.Filled := by
  obtain ⟨-, rfl⟩ | ⟨hlt, rfl⟩ := Inst.append_cases hu
  · exact ⟨h.cursorCap, h.bufWritten⟩
  · refine ⟨by simp only [Inst.cursor_succ hlt]; omega, fun a ha => ?_⟩
    simp only [Inst.cursor_succ hlt] at ha
    rw [Memory.read_write]
    split
    · rfl
    · exact h.bufWritten a (by omega)

theorem Inst.Filled.memRead {u : Inst} (h : u.Filled) : ∃ vs, u.memRead 0 u.cursor.toNat = .ok vs := by
  obtain ⟨vs, hvs⟩ := Memory.readN_isSome (m := u.buf) (n := u.cursor.toNat) (a := 0)
    fun b _ hb => h.bufWritten b (by omega)
  exact ⟨vs, by simp [Inst.memRead, hvs]⟩

theorem feedEncoder_plain {b : Byte} {e u : Encoder} (hb : encLut e.lut b = none) (hu : e.append b = .ok u) :
    feedEncoder b e = .ok (u.respond .ack) := by
  simp [feedEncoder, hb, hu]

theorem feedEncoder_marker {b i : Byte} {e u v : Encoder} (hb : encLut e.lut b = some i)
    (hu : e.append e.lut.esc = .ok u) (hv : u.append i = .ok v) : feedEncoder b e = .ok (v.respond .ack) := by
  simp [feedEncoder, hb, hu, hv]

theorem feedEncoder_completes {e : Encoder} (b : Byte) (he : Inst.Filled e) : ∃ e', feedEncoder b e = .ok e' := by
  cases hb : encLut e.lut b with
  | none =>
    obtain ⟨u, hu⟩ := Inst.append_completes b he.cursorCap
    exact ⟨_, feedEncoder_plain hb hu⟩
  | some i =>
    obtain ⟨u, hu⟩ := Inst.append_completes e.lut.esc he.cursorCap
    obtain ⟨v, hv⟩ := Inst.append_completes i (he.append hu).cursorCap
    exact ⟨_, feedEncoder_marker hb hu hv⟩

theorem readEncoder_completes {e : Encoder} (null : Bool) (dcap : Count) (he : Inst.Filled e) :
    ∃ e', readEncoder null dcap e = .ok e' := by
  obtain ⟨vs, hvs⟩ := he.memRead
  unfold readEncoder
  split
  · exact ⟨_, rfl⟩
  · simp [frameImage, hvs]

theorem EncMeaning.completes {i : Instr} {f : Encoder → Except Fault Encoder} {e : Encoder} (hf : EncMeaning i f)
    (he : Inst.Filled e) : ∃ e', f e = .ok e' := by
  cases hf with
  | feed b => exact feedEncoder_completes b he
  | reset => exact ⟨_, rfl⟩
  | size => exact ⟨_, rfl⟩
  | getresult null dcap => exact readEncoder_completes null dcap he
  | status => exact ⟨_, rfl⟩

theorem feedEncoder_filled {b : Byte} {e e' : Encoder} (he : Inst.Filled e) (h : feedEncoder b e = .ok e') :
    Inst.Filled e' := by
  obtain ⟨-, u, hu, rfl⟩ | ⟨i, v, u, -, hv, hu, rfl⟩ := feedEncoder_cases h
  · exact { he.append hu with }
  · exact { (he.append hv).append hu with }

theorem EncMeaning.keeps_filled {i : Instr} {f : Encoder → Except Fault Encoder} {e e' : Encoder} (hf : EncMeaning i f)
    (he : Inst.Filled e) (h : f e = .ok e') : Inst.Filled e' := by
  cases hf with
  | feed b => exact feedEncoder_filled he h
  | reset => cases h; exact Inst.filled_of_cursor_zero rfl
  | size => cases h; exact { he with }
  | getresult null dcap => obtain ⟨r, rfl⟩ := readEncoder_responds h; exact { he with }
  | status => cases h; exact { he with }

theorem completeFrame_discarded {d : Decoder} (hcb : d.cbEn = false) : completeFrame d = .ok d.endFrame := by
  simp [completeFrame, hcb]

theorem completeFrame_prompt {d : Decoder} {vs : List Byte} (hcb : d.cbEn = true) (hc : d.consumer = .prompt)
    (hvs : d.toInst.memRead 0 d.cursor.toNat = .ok vs) :
    completeFrame d = .ok (Decoder.endFrame { d with toInst := d.toInst.deliver vs d.cursor d.err }) := by
  simp [completeFrame, hcb, hvs, hc]

theorem completeFrame_holding {d : Decoder} {vs : List Byte} (hcb : d.cbEn = true) (hc : d.consumer = .holding)
    (hvs : d.toInst.memRead 0 d.cursor.toNat = .ok vs) :
    completeFrame d = .ok { d with toInst := d.toInst.deliver vs d.cursor d.err, delivering := true } := by
  simp [completeFrame, hcb, hvs, hc]

theorem completeFrame_completes {d : Decoder} (hd : d.toInst.Filled) : ∃ d', completeFrame d = .ok d' := by
  obtain ⟨vs, hvs⟩ := hd.memRead
  cases hcb : d.cbEn with
  | false => exact ⟨_, completeFrame_discarded hcb⟩
  | true =>
    cases hc : d.consumer with
    | prompt => exact ⟨_, completeFrame_prompt hcb hc hvs⟩
    | holding => exact ⟨_, completeFrame_holding hcb hc hvs⟩

theorem FeedRow.perform_completes (row : FeedRow) {d : Decoder} (hd : d.toInst.Filled) :
    ∃ d', row.perform d = .ok d' := by
  cases row with
  | frameEnd => exact completeFrame_completes hd
  | moveTo f => exact ⟨_, rfl⟩
  | payload m =>
    obtain ⟨u, hu⟩ := Inst.append_completes m hd.cursorCap
    exact ⟨_, FeedRow.perform_payload hu⟩
  | badIndex => exact ⟨_, rfl⟩

theorem DecMeaning.completes {i : Instr} {f : Decoder → Except Fault Decoder} {d : Decoder} (hf : DecMeaning i f)
    (hd : d.toInst.Filled) : ∃ d', f d = .ok d' := by
  cases hf with
  | feed b => rw [feedDecoder_eq_perform]; exact FeedRow.perform_completes _ hd
  | reset => exact ⟨_, rfl⟩
  | setcb off => exact ⟨_, rfl⟩
  | status => exact ⟨_, rfl⟩

/-! ## What passes at the ports for one command -/

/-- An encoder command gives one response and no delivery (R40, R116). -/
theorem EncMeaning.responds {i : Instr} {f : Encoder → Except Fault Encoder} {e e' : Encoder} (hf : EncMeaning i f)
    (h : f e = .ok e') : e'.cmd = none ∧ ∃ r, e'.obs = e.obs ++ [.rsp r] := by
  obtain ⟨b, u, -, hu, -, rfl⟩ | ⟨-, rfl⟩ | ⟨-, r, rfl⟩ := hf.next h
  · exact ⟨rfl, .ack, by simp [hu.obs]⟩
  · exact ⟨rfl, .ack, rfl⟩
  · exact ⟨rfl, r, rfl⟩

/-- A decoder that completes every command within the command: no delivery is in progress and its consumer is prompt
(H-A3). -/
structure Decoder.Prompt (d : Decoder) : Prop where
  consumer : d.consumer = .prompt
  idle     : d.delivering = false

/-- A decoder command gives one response, after at most one delivery, when the consumer is prompt (R40, R41). -/
theorem DecMeaning.responds {i : Instr} {f : Decoder → Except Fault Decoder} {d d' : Decoder} (hf : DecMeaning i f)
    (hd : d.Prompt) (h : f d = .ok d') :
    d'.Prompt ∧ d'.cmd = none ∧
      ∃ r, d'.obs = d.obs ++ [.rsp r] ∨ ∃ bs len err, d'.obs = d.obs ++ [.dlv bs len err, .rsp r] := by
  obtain ⟨-, -, hframe⟩ | ⟨b, u, fsm, -, hu, -, rfl⟩ | ⟨-, rfl⟩ | ⟨off, -, rfl⟩ | ⟨-, r, rfl⟩ := hf.next h
  · obtain ⟨vs, -, -, ⟨-, rfl⟩ | ⟨hc, -⟩⟩ | ⟨-, rfl⟩ := completeFrame_cases hframe
    · exact ⟨{ hd with }, rfl, .ack, .inr ⟨vs, d.cursor, d.err, by simp [Decoder.endFrame]⟩⟩
    · rw [hd.consumer] at hc; cases hc
    · exact ⟨{ hd with }, rfl, .ack, .inl rfl⟩
  · exact ⟨{ hd with }, rfl, .ack, .inl (by simp [hu.obs])⟩
  · exact ⟨{ hd with }, rfl, .ack, .inl rfl⟩
  · exact ⟨{ hd with }, rfl, .ack, .inl rfl⟩
  · exact ⟨{ hd with }, rfl, r, .inl rfl⟩

theorem completeFrame_filled {d d' : Decoder} (hd : d.toInst.Filled) (h : completeFrame d = .ok d') :
    d'.toInst.Filled := by
  obtain ⟨vs, -, -, ⟨-, rfl⟩ | ⟨-, rfl⟩⟩ | ⟨-, rfl⟩ := completeFrame_cases h
  · exact Inst.filled_of_cursor_zero rfl
  · exact { hd with }
  · exact Inst.filled_of_cursor_zero rfl

theorem FeedRow.perform_filled {row : FeedRow} {d d' : Decoder} (hd : d.toInst.Filled) (h : row.perform d = .ok d') :
    d'.toInst.Filled := by
  cases row with
  | frameEnd => exact completeFrame_filled hd h
  | moveTo f => cases h; exact { hd with }
  | payload m =>
    obtain ⟨u, hu, rfl⟩ := FeedRow.perform_payload_next h
    exact { hd.append hu with }
  | badIndex => cases h; exact { hd with }

theorem DecMeaning.keeps_filled {i : Instr} {f : Decoder → Except Fault Decoder} {d d' : Decoder} (hf : DecMeaning i f)
    (hd : d.toInst.Filled) (h : f d = .ok d') : d'.toInst.Filled := by
  cases hf with
  | feed b => rw [feedDecoder_eq_perform] at h; exact FeedRow.perform_filled hd h
  | reset => cases h; exact Inst.filled_of_cursor_zero rfl
  | setcb off => cases h; exact { hd with }
  | status => cases h; exact { hd with }

/-! ## What a command depends on -/

theorem Inst.Alike.respond {u v : Inst} (h : u.Alike v) (r : Response) : (u.respond r).Alike (v.respond r) :=
  { h with cmd := rfl }

theorem Inst.Alike.clear {u v : Inst} (h : u.Alike v) : u.clear.Alike v.clear :=
  { h with
    cursor := rfl
    err := rfl
    written := fun a ha => absurd ha (Nat.not_lt_zero a) }

theorem Inst.Alike.raise {u v : Inst} (h : u.Alike v) (c : ErrCode) : (u.raise c).Alike (v.raise c) :=
  { h with err := by simp [h.err, h.errCombine] }

theorem Inst.Alike.deliver {u v : Inst} (h : u.Alike v) (bs cs : List Byte) (len len' : Count) (err err' : ErrCode) :
    (u.deliver bs len err).Alike (v.deliver cs len' err') :=
  { h with }

theorem Inst.Alike.append {u v u' : Inst} {b : Byte} (h : u.Alike v) (hu : u.append b = .ok u') :
    ∃ v', v.append b = .ok v' ∧ u'.Alike v' := by
  obtain ⟨hfull, rfl⟩ | ⟨hlt, rfl⟩ := Inst.append_cases hu
  · exact ⟨_, Inst.append_full b (by rw [← h.cursor, ← h.cap, hfull]), h.raise _⟩
  · refine ⟨_, Inst.append_room b (by rwa [← h.cursor, ← h.cap]), ?_⟩
    exact
      { h with
        cursor := by simp only [h.cursor]
        written := fun a ha => by
          simp only [Inst.cursor_succ hlt] at ha
          simp only [Memory.read_write, ← h.cursor]
          split
          · rfl
          · exact h.written a (by omega) }

/-- A read below CURSOR sees only what alike instances share. -/
theorem Inst.Alike.memRead {u v : Inst} (h : u.Alike v) (n : Nat) : v.memRead 0 n = u.memRead 0 n := by
  unfold Inst.memRead
  rw [← h.cursor]
  split
  · rw [Memory.readN_congr fun a _ ha => h.written a (by omega)]
  · rfl

/-- Two instances have passed the same events since they were u and v. -/
def Inst.SameEvents (u v u' v' : Inst) : Prop :=
  ∃ evs, u'.obs = u.obs ++ evs ∧ v'.obs = v.obs ++ evs

theorem Inst.SameEvents.respond {u v u' v' : Inst} (hu : u'.obs = u.obs) (hv : v'.obs = v.obs) (r : Response) :
    Inst.SameEvents u v (u'.respond r) (v'.respond r) :=
  ⟨[.rsp r], by simp [hu], by simp [hv]⟩

theorem Inst.SameEvents.trans {u v u' v' u'' v'' : Inst} (h : Inst.SameEvents u v u' v')
    (h' : Inst.SameEvents u' v' u'' v'') : Inst.SameEvents u v u'' v'' := by
  obtain ⟨evs, hu, hv⟩ := h
  obtain ⟨evs', hu', hv'⟩ := h'
  exact ⟨evs ++ evs', by rw [hu', hu, List.append_assoc], by rw [hv', hv, List.append_assoc]⟩

theorem feedEncoder_alike {b : Byte} {e f e' : Encoder} (h : Inst.Alike e f) (he : feedEncoder b e = .ok e') :
    ∃ f', feedEncoder b f = .ok f' ∧ Inst.Alike e' f' ∧ Inst.SameEvents e f e' f' := by
  obtain ⟨hb, u, hu, rfl⟩ | ⟨i, u1, u, hb, hu1, hu, rfl⟩ := feedEncoder_cases he
  · obtain ⟨v, hv, halike⟩ := h.append hu
    exact ⟨_, feedEncoder_plain (h.lut ▸ hb) hv, halike.respond _,
      .respond (Inst.append_extends hu).obs (Inst.append_extends hv).obs _⟩
  · obtain ⟨v1, hv1, halike1⟩ := h.append hu1
    obtain ⟨v, hv, halike⟩ := halike1.append hu
    exact ⟨_, feedEncoder_marker (h.lut ▸ hb) (h.lut ▸ hv1) hv, halike.respond _,
      .respond ((Inst.append_extends hu1).trans (Inst.append_extends hu)).obs
        ((Inst.append_extends hv1).trans (Inst.append_extends hv)).obs _⟩

/-- Alike encoders are read out alike. -/
theorem frameImage_alike {e f : Encoder} (h : Inst.Alike e f) : frameImage f = frameImage e := by
  simp only [frameImage, ← h.cursor, ← h.lut, h.memRead]

theorem readEncoder_alike {null : Bool} {dcap : Count} {e f e' : Encoder} (h : Inst.Alike e f)
    (he : readEncoder null dcap e = .ok e') : ∃ r, e' = e.respond r ∧ readEncoder null dcap f = .ok (f.respond r) := by
  unfold readEncoder at he ⊢
  rw [frameImage_alike h, show frameSize f = frameSize e by simp only [frameSize, h.cursor]]
  split at he
  · cases he; exact ⟨_, rfl, by simp [*]⟩
  · split at he
    · cases he; exact ⟨_, rfl, by simp [*]⟩
    · cases he

/-- An encoder command depends only on what alike encoders share (R42, R44). -/
theorem EncMeaning.alike {i : Instr} {c : Encoder → Except Fault Encoder} {e f e' : Encoder} (hc : EncMeaning i c)
    (h : Inst.Alike e f) (he : c e = .ok e') :
    ∃ f', c f = .ok f' ∧ Inst.Alike e' f' ∧ Inst.SameEvents e f e' f' := by
  cases hc with
  | feed b => exact feedEncoder_alike h he
  | reset => cases he; exact ⟨_, rfl, h.clear.respond _, .respond rfl rfl _⟩
  | size =>
    cases he
    exact ⟨_, by rw [sizeEncoder, frameSize, ← h.cursor]; rfl, h.respond _, .respond rfl rfl _⟩
  | getresult null dcap =>
    obtain ⟨r, rfl, hf⟩ := readEncoder_alike h he
    exact ⟨_, hf, h.respond r, .respond rfl rfl r⟩
  | status =>
    cases he
    exact ⟨_, by rw [statusEncoder, ← h.cursor, ← h.err], h.respond _, .respond rfl rfl _⟩

theorem Decoder.Alike.respond {c d : Decoder} (h : c.Alike d) (r : Response) : (c.respond r).Alike (d.respond r) :=
  { h with base := h.base.respond r }

theorem Decoder.Alike.endFrame {c d : Decoder} (h : c.Alike d) : c.endFrame.Alike d.endFrame :=
  { h with
    base := h.base.clear.respond _
    fsm := rfl }

theorem completeFrame_alike {c d c' : Decoder} (h : c.Alike d) (hc : completeFrame c = .ok c') :
    ∃ d', completeFrame d = .ok d' ∧ c'.Alike d' ∧ Inst.SameEvents c.toInst d.toInst c'.toInst d'.toInst := by
  obtain ⟨vs, hcb, hvs, hout⟩ | ⟨hcb, rfl⟩ := completeFrame_cases hc
  · have hvs' : d.toInst.memRead 0 d.cursor.toNat = .ok vs := by rw [← h.base.cursor, h.base.memRead, hvs]
    obtain ⟨hcons, rfl⟩ | ⟨hcons, rfl⟩ := hout
    · refine ⟨_, completeFrame_prompt (h.cbEn ▸ hcb) (h.consumer ▸ hcons) hvs', ?_, ?_⟩
      · exact Decoder.Alike.endFrame (c := { c with toInst := _ }) (d := { d with toInst := _ })
          { h with base := h.base.deliver .. }
      · exact ⟨[.dlv vs c.cursor c.err, .rsp .ack], by simp [Decoder.endFrame],
          by simp [Decoder.endFrame, h.base.cursor, h.base.err]⟩
    · refine ⟨_, completeFrame_holding (h.cbEn ▸ hcb) (h.consumer ▸ hcons) hvs', ?_, ?_⟩
      · exact { h with base := h.base.deliver .., delivering := rfl }
      · exact ⟨[.dlv vs c.cursor c.err], rfl, by simp [h.base.cursor, h.base.err]⟩
  · exact ⟨_, completeFrame_discarded (h.cbEn ▸ hcb), h.endFrame, .respond rfl rfl _⟩

theorem FeedRow.perform_alike {row : FeedRow} {c d c' : Decoder} (h : c.Alike d) (hc : row.perform c = .ok c') :
    ∃ d', row.perform d = .ok d' ∧ c'.Alike d' ∧ Inst.SameEvents c.toInst d.toInst c'.toInst d'.toInst := by
  cases row with
  | frameEnd => exact completeFrame_alike h hc
  | moveTo f => cases hc; exact ⟨_, rfl, { h with base := h.base.respond _, fsm := rfl }, .respond rfl rfl _⟩
  | payload m =>
    obtain ⟨u, hu, rfl⟩ := FeedRow.perform_payload_next hc
    obtain ⟨v, hv, halike⟩ := h.base.append hu
    exact ⟨_, FeedRow.perform_payload hv, { h with base := halike.respond _, fsm := rfl },
      .respond (Inst.append_extends hu).obs (Inst.append_extends hv).obs _⟩
  | badIndex =>
    cases hc
    exact ⟨_, rfl, { h with base := (h.base.raise _).respond _, fsm := rfl }, .respond rfl rfl _⟩

/-- A decoder command depends only on what alike decoders share (R42, R44). -/
theorem DecMeaning.alike {i : Instr} {f : Decoder → Except Fault Decoder} {c d c' : Decoder} (hf : DecMeaning i f)
    (h : c.Alike d) (hc : f c = .ok c') :
    ∃ d', f d = .ok d' ∧ c'.Alike d' ∧ Inst.SameEvents c.toInst d.toInst c'.toInst d'.toInst := by
  cases hf with
  | feed b =>
    rw [feedDecoder_eq_perform] at hc ⊢
    rw [← h.base.lut, ← h.fsm]
    exact FeedRow.perform_alike h hc
  | reset => cases hc; exact ⟨_, rfl, h.endFrame, .respond rfl rfl _⟩
  | setcb off => cases hc; exact ⟨_, rfl, { h with base := h.base.respond _, cbEn := rfl }, .respond rfl rfl _⟩
  | status =>
    cases hc
    exact ⟨_, by rw [statusDecoder, ← h.base.cursor, ← h.cbEn, ← h.fsm, ← h.base.err], h.respond _,
      .respond rfl rfl _⟩

end Sys2Proof.Machine
end

section
/-! PROOFS. The statements on single commands and on sequences of commands: frames, errors and CURSOR, what is never
observed, and an encoder or decoder just reset beside a new one. -/

namespace Sys2Proof.Machine

/-! ## Sequences of commands -/

theorem execAll_cons_next {i : Instr} {is : List Instr} {s t : State} (h : exec i s = .next t) :
    execAll (i :: is) s = execAll is t := by
  simp [execAll, h]

/-- Alike encoders that are ready for commands complete any of them and answer alike. -/
theorem execAll_enc_alike {is : List Instr} (his : ∀ i ∈ is, i.unit = .enc) : ∀ {s t : State} {e f : Encoder},
    s.enc? = some e → t.enc? = some f → Inst.Filled e → Inst.Alike e f →
    ∃ s' t' e' f', execAll is s = .next s' ∧ execAll is t = .next t' ∧ s'.enc? = some e' ∧ t'.enc? = some f' ∧
      Inst.SameEvents e f e' f' := by
  induction is with
  | nil =>
    intro s t e f hs ht _ _
    exact ⟨s, t, e, f, rfl, rfl, hs, ht, [], by simp, by simp⟩
  | cons i is ih =>
    intro s t e f hs ht hfill halike
    obtain ⟨hi, his⟩ := List.forall_mem_cons.mp his
    obtain ⟨c, hc⟩ := exists_encMeaning hi
    obtain ⟨e1, he1⟩ := hc.completes hfill
    obtain ⟨f1, hf1, halike1, hev1⟩ := hc.alike halike he1
    obtain ⟨s', t', e', f', hs', ht', he', hf', hev⟩ := ih his (State.setEnc_enc? hs e1) (State.setEnc_enc? ht f1)
      (hc.keeps_filled hfill he1) halike1
    refine ⟨s', t', e', f', ?_, ?_, he', hf', hev1.trans hev⟩
    · rwa [execAll_cons_next ((hc.exec_eq s).trans (onEncoder_ok hs he1))]
    · rwa [execAll_cons_next ((hc.exec_eq t).trans (onEncoder_ok ht hf1))]

/-- Alike decoders that are ready for commands complete any of them and answer alike. -/
theorem execAll_dec_alike {is : List Instr} (his : ∀ i ∈ is, i.unit = .dec) : ∀ {s t : State} {c d : Decoder},
    s.dec? = some c → t.dec? = some d → c.toInst.Filled → c.Prompt → c.Alike d →
    ∃ s' t' c' d', execAll is s = .next s' ∧ execAll is t = .next t' ∧ s'.dec? = some c' ∧ t'.dec? = some d' ∧
      Inst.SameEvents c.toInst d.toInst c'.toInst d'.toInst := by
  induction is with
  | nil =>
    intro s t c d hs ht _ _ _
    exact ⟨s, t, c, d, rfl, rfl, hs, ht, [], by simp, by simp⟩
  | cons i is ih =>
    intro s t c d hs ht hfill hprompt halike
    obtain ⟨hi, his⟩ := List.forall_mem_cons.mp his
    obtain ⟨f, hf⟩ := exists_decMeaning hi
    obtain ⟨c1, hc1⟩ := hf.completes hfill
    obtain ⟨d1, hd1, halike1, hev1⟩ := hf.alike halike hc1
    obtain ⟨hprompt1, -⟩ := hf.responds hprompt hc1
    obtain ⟨s', t', c', d', hs', ht', hc', hd', hev⟩ := ih his (State.setDec_dec? hs c1) (State.setDec_dec? ht d1)
      (hf.keeps_filled hfill hc1) hprompt1 halike1
    refine ⟨s', t', c', d', ?_, ?_, hc', hd', hev1.trans hev⟩
    · rwa [execAll_cons_next ((hf.exec_eq s).trans (onDecoder_ok hs hprompt.idle hc1))]
    · rwa [execAll_cons_next ((hf.exec_eq t).trans (onDecoder_ok ht (halike.delivering ▸ hprompt.idle) hd1))]

/-! ## Just reset -/

/-- What a reset leaves of the common state is alike to a new one with the same parameters. -/
theorem Inst.clear_respond_alike_elaborated (u : Inst) :
    (u.clear.respond .ack).Alike
      (Encoder.elaborated { cap := u.cap.toNat, lut := u.lut, errCombine := u.errCombine }) :=
  { cursor := rfl
    err := rfl
    lut := rfl
    cap := by simp [Encoder.elaborated]
    errCombine := rfl
    cmd := rfl
    written := fun a ha => absurd ha (Nat.not_lt_zero a) }

theorem Decoder.endFrame_alike_elaborated {d : Decoder} (hd : d.Prompt) :
    d.endFrame.Alike { Decoder.elaborated { cap := d.cap.toNat, lut := d.lut, errCombine := d.errCombine } with
      cbEn := d.cbEn } :=
  { base := d.toInst.clear_respond_alike_elaborated
    fsm := rfl
    cbEn := rfl
    consumer := hd.consumer
    delivering := hd.idle }

/-- Settles O31: an encoder just reset and a new one are alike, and alike encoders answer alike. -/
theorem resetEncoderIsLikeNew : Obligations.ResetEncoderIsLikeNew := by
  unfold Obligations.ResetEncoderIsLikeNew
  intro s e is he his
  obtain ⟨t1, t2, e1, e2, h1, h2, he1, he2, evs, hev1, hev2⟩ := execAll_enc_alike his
    (State.setEnc_enc? he _) (State.setEnc_enc? he _) (Inst.filled_of_cursor_zero rfl)
    (Inst.clear_respond_alike_elaborated e)
  exact ⟨_, t1, t2, e1, e2, evs, onEncoder_ok (f := resetEncoder) he rfl, h1, h2, he1, he2, hev1, hev2⟩

/-- Settles O45: a decoder just reset and a new one with its CB_EN are alike, and alike decoders answer alike. -/
theorem resetDecoderIsLikeNew : Obligations.ResetDecoderIsLikeNew := by
  unfold Obligations.ResetDecoderIsLikeNew
  intro s d is hd hidle hc his
  have hprompt : d.Prompt := ⟨hc, hidle⟩
  obtain ⟨t1, t2, d1, d2, h1, h2, hd1, hd2, evs, hev1, hev2⟩ := execAll_dec_alike his
    (State.setDec_dec? hd _) (State.setDec_dec? hd _) (c := d.endFrame) (Inst.filled_of_cursor_zero rfl)
    { hprompt with } (Decoder.endFrame_alike_elaborated hprompt)
  exact ⟨_, t1, t2, d1, d2, evs, onDecoder_ok (f := resetDecoder) hd hidle rfl, h1, h2, hd1, hd2, hev1, hev2⟩

/-! ## What is never observed -/

/-- Settles O32: the command's function depends only on what alike encoders share. -/
theorem encoderBytesAboveCursorUnobserved : Obligations.EncoderBytesAboveCursorUnobserved := by
  unfold Obligations.EncoderBytesAboveCursorUnobserved
  intro s t e f i he halike hi h
  obtain ⟨c, hc⟩ := exists_encMeaning hi
  obtain ⟨e', hce, rfl⟩ := onEncoder_next_of he ((hc.exec_eq s).symm.trans h)
  obtain ⟨f', hcf, halike', evs, hev, hev'⟩ := hc.alike halike hce
  have hf := State.setEnc_enc? he f
  exact ⟨_, e', f', evs, (hc.exec_eq _).trans (onEncoder_ok hf hcf), State.setEnc_enc? he e', State.setEnc_enc? hf f',
    hev, hev', halike'⟩

/-- Settles O46: the command's function depends only on what alike decoders share. -/
theorem decoderBytesAboveCursorUnobserved : Obligations.DecoderBytesAboveCursorUnobserved := by
  unfold Obligations.DecoderBytesAboveCursorUnobserved
  intro s t c d i hc halike hi h
  obtain ⟨f, hf⟩ := exists_decMeaning hi
  obtain ⟨c', hidle, hfc, rfl⟩ := onDecoder_next_of hc ((hf.exec_eq s).symm.trans h)
  obtain ⟨d', hfd, halike', evs, hev, hev'⟩ := hf.alike halike hfc
  have hd := State.setDec_dec? hc d
  exact ⟨_, c', d', evs, (hf.exec_eq _).trans (onDecoder_ok hd (halike.delivering ▸ hidle) hfd), State.setDec_dec? hc c',
    State.setDec_dec? hd d', hev, hev', halike'⟩

/-! ## Frames -/

/-- Settles O28: the frame of the state, then of the encoder for a FEED, a RESET and a command that only responds. -/
theorem encoderCommandFrame : Obligations.EncoderCommandFrame := by
  unfold Obligations.EncoderCommandFrame
  intro s t e i he hi h
  obtain ⟨f, hf⟩ := exists_encMeaning hi
  obtain ⟨e', hfe, rfl⟩ := onEncoder_next_of he ((hf.exec_eq s).symm.trans h)
  obtain ⟨hcmd, r, hobs⟩ := hf.responds hfe
  refine ⟨e', r, State.setEnc_enc? he e', rfl, rfl, rfl, List.length_set, fun k hk => List.getElem?_set_ne hk.symm, ?_⟩
  obtain ⟨b, u, rfl, hu, hcur, rfl⟩ | ⟨rfl, rfl⟩ | ⟨hread, r, rfl⟩ := hf.next hfe
  · exact ⟨hu.lut, hu.cap, hu.errCombine, hcmd, hobs, hu.outside, fun _ hb => by cases hb; exact hcur, nofun, by simp⟩
  · exact ⟨rfl, rfl, rfl, hcmd, hobs, fun _ _ => rfl, nofun, fun _ => ⟨rfl, rfl⟩, by simp⟩
  · refine ⟨rfl, rfl, rfl, hcmd, hobs, fun _ _ => rfl, fun b hb => ?_, fun hr => ?_, fun _ => ⟨rfl, rfl⟩⟩
    · simp [hb] at hread
    · simp [hr] at hread

/-- What a decoder command leaves unchanged, whatever it is. -/
structure Decoder.Framed (d d' : Decoder) : Prop where
  lut        : d'.lut = d.lut
  cap        : d'.cap = d.cap
  errCombine : d'.errCombine = d.errCombine
  consumer   : d'.consumer = d.consumer
  outside    : ∀ a, ¬ (d.cursor.toNat ≤ a ∧ a < d'.cursor.toNat) → Memory.read d'.buf a = Memory.read d.buf a
  byOne      : d'.cursor.toNat ≤ d.cursor.toNat + 1

theorem Decoder.endFrame_framed (d : Decoder) : d.Framed d.endFrame :=
  ⟨rfl, rfl, rfl, rfl, fun _ _ => rfl, Nat.zero_le _⟩

theorem completeFrame_framed {d d' : Decoder} (h : completeFrame d = .ok d') : d.Framed d' := by
  obtain ⟨vs, -, -, ⟨-, rfl⟩ | ⟨-, rfl⟩⟩ | ⟨-, rfl⟩ := completeFrame_cases h
  · exact { d.endFrame_framed with }
  · exact ⟨rfl, rfl, rfl, rfl, fun _ _ => rfl, Nat.le_succ _⟩
  · exact d.endFrame_framed

theorem DecMeaning.framed {i : Instr} {f : Decoder → Except Fault Decoder} {d d' : Decoder} (hf : DecMeaning i f)
    (h : f d = .ok d') : d.Framed d' := by
  obtain ⟨-, -, hframe⟩ | ⟨b, u, fsm, -, hu, hcur, rfl⟩ | ⟨-, rfl⟩ | ⟨off, -, rfl⟩ | ⟨-, r, rfl⟩ := hf.next h
  · exact completeFrame_framed hframe
  · exact ⟨hu.lut, hu.cap, hu.errCombine, rfl, hu.outside, hcur⟩
  · exact d.endFrame_framed
  · exact ⟨rfl, rfl, rfl, rfl, fun _ _ => rfl, Nat.le_succ _⟩
  · exact ⟨rfl, rfl, rfl, rfl, fun _ _ => rfl, Nat.le_succ _⟩

/-- A completed frame keeps CB_EN; its delivery, if it makes one, comes before the ACK, which a holding consumer delays. -/
theorem completeFrame_events {d d' : Decoder} (h : completeFrame d = .ok d') :
    d'.cbEn = d.cbEn ∧ (d'.obs = d.obs ++ [.rsp .ack] ∨
      (∃ bs, d'.obs = d.obs ++ [.dlv bs d.cursor d.err, .rsp .ack]) ∨
      (d'.delivering = true ∧ ∃ bs, d'.obs = d.obs ++ [.dlv bs d.cursor d.err])) := by
  obtain ⟨vs, -, -, ⟨-, rfl⟩ | ⟨-, rfl⟩⟩ | ⟨-, rfl⟩ := completeFrame_cases h
  · exact ⟨rfl, .inr (.inl ⟨vs, by simp [Decoder.endFrame]⟩)⟩
  · exact ⟨rfl, .inr (.inr ⟨rfl, vs, rfl⟩)⟩
  · exact ⟨rfl, .inl rfl⟩

/-- Settles O43: the frame of the state, the part of the decoder that every command keeps, and then what the kinds of
command differ in. -/
theorem decoderCommandFrame : Obligations.DecoderCommandFrame := by
  unfold Obligations.DecoderCommandFrame
  intro s t d i hd hi h
  obtain ⟨f, hf⟩ := exists_decMeaning hi
  obtain ⟨d', -, hfd, rfl⟩ := onDecoder_next_of hd ((hf.exec_eq s).symm.trans h)
  obtain ⟨hlut, hcap, hcomb, hcons, hout, hone⟩ := hf.framed hfd
  refine ⟨d', State.setDec_dec? hd d', rfl, rfl, rfl, List.length_set, fun k hk => List.getElem?_set_ne hk.symm,
    hlut, hcap, hcomb, hcons, hout, hone, ?_⟩
  obtain ⟨rfl, -, hframe⟩ | ⟨b, u, fsm, rfl, hu, -, rfl⟩ | ⟨rfl, rfl⟩ | ⟨off, rfl, rfl⟩ | ⟨rfl, r, rfl⟩ := hf.next hfd
  · obtain ⟨hcb, hev⟩ := completeFrame_events hframe
    exact ⟨by simp, fun _ => hcb, fun hne => absurd rfl (hne _), fun _ _ => hev⟩
  · exact ⟨by simp, fun _ => rfl, fun hne => absurd rfl (hne _), fun _ _ => .inl (by simp [hu.obs])⟩
  · exact ⟨by simp, fun _ => rfl, fun _ => ⟨_, rfl⟩, nofun⟩
  · exact ⟨fun _ => ⟨rfl, rfl, rfl⟩, fun hne => absurd rfl (hne _), fun _ => ⟨_, rfl⟩, nofun⟩
  · exact ⟨fun _ => ⟨rfl, rfl, rfl⟩, fun _ => rfl, fun _ => ⟨_, rfl⟩, nofun⟩

/-! ## ERR and CURSOR between resets -/

/-- Every command but ENC.RESET keeps an encoder's error and does not lower its CURSOR. -/
theorem EncMeaning.reset_or_extends {i : Instr} {f : Encoder → Except Fault Encoder} {e e' : Encoder}
    (hf : EncMeaning i f) (h : f e = .ok e') :
    i = .encReset ∨ (e.cursor.toNat ≤ e'.cursor.toNat ∧ (e'.err = .noError → e.err = .noError)) := by
  obtain ⟨b, u, -, hu, -, rfl⟩ | ⟨rfl, -⟩ | ⟨-, r, rfl⟩ := hf.next h
  · exact .inr ⟨hu.grows, hu.errStays⟩
  · exact .inl rfl
  · exact .inr ⟨le_rfl, id⟩

/-- Every command but DEC.RESET and DEC.FEED of EOF in RP keeps a decoder's error and does not lower its CURSOR. -/
theorem DecMeaning.reset_or_extends {i : Instr} {f : Decoder → Except Fault Decoder} {d d' : Decoder}
    (hf : DecMeaning i f) (h : f d = .ok d') :
    (i = .decReset ∨ (i = .decFeed d.lut.eof ∧ d.fsm = .rp)) ∨
      (d.cursor.toNat ≤ d'.cursor.toNat ∧ (d'.err = .noError → d.err = .noError)) := by
  obtain ⟨rfl, hrp, -⟩ | ⟨b, u, fsm, -, hu, -, rfl⟩ | ⟨rfl, -⟩ | ⟨off, -, rfl⟩ | ⟨-, r, rfl⟩ := hf.next h
  · exact .inl (.inr ⟨rfl, hrp⟩)
  · exact .inr ⟨hu.grows, hu.errStays⟩
  · exact .inl (.inl rfl)
  · exact .inr ⟨le_rfl, id⟩
  · exact .inr ⟨le_rfl, id⟩

/-- What any command does to the selected encoder's CURSOR and ERR. -/
theorem exec_enc_reset_or_extends {s t : State} {e e' : Encoder} {i : Instr} (he : s.enc? = some e)
    (h : exec i s = .next t) (he' : t.enc? = some e') :
    i = .encReset ∨ (e.cursor.toNat ≤ e'.cursor.toNat ∧ (e'.err = .noError → e.err = .noError)) := by
  obtain ⟨f, hf⟩ | ⟨f, hf⟩ := encMeaning_or_decMeaning i
  · obtain ⟨e1, hfe, rfl⟩ := onEncoder_next_of he ((hf.exec_eq s).symm.trans h)
    obtain rfl : e1 = e' := Option.some.inj ((State.setEnc_enc? he e1).symm.trans he')
    exact hf.reset_or_extends hfe
  · obtain ⟨-, d', -, -, -, rfl⟩ := onDecoder_next ((hf.exec_eq s).symm.trans h)
    obtain rfl : e = e' := Option.some.inj (he.symm.trans he')
    exact .inr ⟨le_rfl, id⟩

/-- What any command does to the selected decoder's CURSOR and ERR. -/
theorem exec_dec_reset_or_extends {s t : State} {d d' : Decoder} {i : Instr} (hd : s.dec? = some d)
    (h : exec i s = .next t) (hd' : t.dec? = some d') :
    (i = .decReset ∨ (i = .decFeed d.lut.eof ∧ d.fsm = .rp)) ∨
      (d.cursor.toNat ≤ d'.cursor.toNat ∧ (d'.err = .noError → d.err = .noError)) := by
  obtain ⟨f, hf⟩ | ⟨f, hf⟩ := encMeaning_or_decMeaning i
  · obtain ⟨-, e', -, -, rfl⟩ := onEncoder_next ((hf.exec_eq s).symm.trans h)
    obtain rfl : d = d' := Option.some.inj (hd.symm.trans hd')
    exact .inr ⟨le_rfl, id⟩
  · obtain ⟨d1, -, hfd, rfl⟩ := onDecoder_next_of hd ((hf.exec_eq s).symm.trans h)
    obtain rfl : d1 = d' := Option.some.inj ((State.setDec_dec? hd d1).symm.trans hd')
    exact hf.reset_or_extends hfd

/-- Settles O49: a command is a reset, an EOF in RP, or keeps the error. -/
theorem errorStaysUntilReset : Obligations.ErrorStaysUntilReset := by
  unfold Obligations.ErrorStaysUntilReset
  refine ⟨fun s t e e' i he h he' herr herr' => ?_, fun s t d d' i hd h hd' herr herr' => ?_⟩
  · exact (exec_enc_reset_or_extends he h he').resolve_right fun hext => herr (hext.2 herr')
  · exact (exec_dec_reset_or_extends hd h hd').resolve_right fun hext => herr (hext.2 herr')

/-- Settles O52: a command is a reset, an EOF in RP, or does not lower CURSOR. -/
theorem cursorOnlyGrowsBetweenResets : Obligations.CursorOnlyGrowsBetweenResets := by
  unfold Obligations.CursorOnlyGrowsBetweenResets
  refine ⟨fun s t e e' i he h he' hreset => ?_, fun s t d d' i hd h hd' hreset hframe => ?_⟩
  · exact ((exec_enc_reset_or_extends he h he').resolve_left hreset).1
  · exact ((exec_dec_reset_or_extends hd h hd').resolve_left (not_or.mpr ⟨hreset, hframe⟩)).1

end Sys2Proof.Machine
end

section
/-! PROOFS. A move as a step of the encoder or decoder at its port: what that can become, and that the rest of the state neither
changes nor matters; with it the statements on single moves, on pairs of moves and on a host that waits. -/

namespace Sys2Proof.Machine

/-! ## Lists of instances -/

theorem set_of_getElem? {α : Type} {l : List α} {k : Nat} {a : α} (h : l[k]? = some a) : l.set k a = l := by
  obtain ⟨hlt, rfl⟩ := List.getElem?_eq_some_iff.mp h
  exact List.set_getElem_self hlt

theorem getElem?_set_of_getElem? {α : Type} {l : List α} {k : Nat} {a : α} (h : l[k]? = some a) (b : α) :
    (l.set k b)[k]? = some b :=
  List.getElem?_set_self (List.getElem?_eq_some_iff.mp h).1

theorem getElem?_append_of_getElem? {α : Type} {l : List α} {k : Nat} {a : α} (h : l[k]? = some a) (l' : List α) :
    (l ++ l')[k]? = some a := by
  rw [List.getElem?_append_left (List.getElem?_eq_some_iff.mp h).1, h]

/-- Replacing one element by a related one leaves every element related to its successor. -/
theorem exists_getElem?_set {α : Type} {R : α → α → Prop} (hrefl : ∀ a, R a a) {l : List α} {k : Nat} {a b : α}
    (hk : l[k]? = some a) (hab : R a b) {j : Nat} {c : α} (hj : l[j]? = some c) :
    ∃ c', (l.set k b)[j]? = some c' ∧ R c c' := by
  by_cases hkj : k = j
  · subst hkj
    obtain rfl : a = c := Option.some.inj (hk.symm.trans hj)
    exact ⟨b, getElem?_set_of_getElem? hk b, hab⟩
  · exact ⟨c, by rw [List.getElem?_set_ne hkj, hj], hrefl c⟩

/-! ## The step at one port -/

/-- What the move m can make of the k-th encoder (R39, R83, R157). -/
inductive EncStep (k : Nat) : Move → Encoder → Encoder → Prop where
  | issue {e : Encoder} (w : Word) (hcmd : e.cmd = none) : EncStep k (.issue (.enc k) w) e { e with cmd := some w }
  | idle {e : Encoder} (hcmd : e.cmd = none) : EncStep k (.run (.enc k)) e e
  | command {e e' : Encoder} {w : Word} {i : Instr} {f : Encoder → Except Fault Encoder} (hcmd : e.cmd = some w)
      (hi : decode .enc w = some i) (hf : EncMeaning i f) (h : f (e.take w) = .ok e') : EncStep k (.run (.enc k)) e e'
  | illegal {e : Encoder} {w : Word} (hcmd : e.cmd = some w) (hi : decode .enc w = none) :
      EncStep k (.run (.enc k)) e ((e.take w).respond .illegal)

/-- What the move m can make of the k-th decoder (R39, R83, R137, R157, R177). -/
inductive DecStep (k : Nat) : Move → Decoder → Decoder → Prop where
  | issue {d : Decoder} (w : Word) (hcmd : d.cmd = none) (hn : d.delivering = false) :
      DecStep k (.issue (.dec k) w) d { d with cmd := some w }
  | idle {d : Decoder} (h : d.cmd = none ∨ d.delivering = true) : DecStep k (.run (.dec k)) d d
  | command {d d' : Decoder} {w : Word} {i : Instr} {f : Decoder → Except Fault Decoder} (hcmd : d.cmd = some w)
      (hn : d.delivering = false) (hi : decode .dec w = some i) (hf : DecMeaning i f)
      (h : f { d with toInst := d.toInst.take w } = .ok d') : DecStep k (.run (.dec k)) d d'
  | illegal {d : Decoder} {w : Word} (hcmd : d.cmd = some w) (hn : d.delivering = false) (hi : decode .dec w = none) :
      DecStep k (.run (.dec k)) d (Decoder.respond { d with toInst := d.toInst.take w } .illegal)
  | finish {d : Decoder} (hn : d.delivering = true) : DecStep k (.finish k) d (finishDelivery d)
  | noFinish {d : Decoder} (hn : d.delivering = false) : DecStep k (.finish k) d d
  | attach {d : Decoder} (c : Consumer) : DecStep k (.attach k c) d { d with consumer := c }

/-! ## A move is the step at its port -/

theorem State.putCmd_enc {s : State} {k : Nat} {e : Encoder} (w : Word) (h : s.encs[k]? = some e) :
    s.putCmd (.enc k) w = { s with encs := s.encs.set k { e with cmd := some w } } := by
  simp [State.putCmd, modify_of_getElem? _ h]

theorem State.putCmd_dec {s : State} {k : Nat} {d : Decoder} (w : Word) (h : s.decs[k]? = some d) :
    s.putCmd (.dec k) w = { s with decs := s.decs.set k { d with cmd := some w } } := by
  simp [State.putCmd, modify_of_getElem? _ h]

theorem issueCmd_idle {s : State} {p : Port} (w : Word) (ho : s.outstanding p = some none)
    (hd : s.deliveringAt p = false) : issueCmd p w s = .next (s.putCmd p w) := by
  simp [issueCmd, ho, hd]

/-- The run of a port that does not exist is refused. -/
theorem runPort_absent {s : State} {p : Port} (ho : s.outstanding p = none) : runPort p s = .refused .noSuchInstance := by
  simp [runPort, ho]

/-- The run of a port whose own delivery holds the command keeps the state. -/
theorem runPort_held {s : State} {p : Port} {w : Word} (ho : s.outstanding p = some (some w))
    (hd : s.deliveringAt p = true) : runPort p s = .next s := by
  simp [runPort, ho, hd]

/-- The run of a port whose outstanding word is illegal responds ILLEGAL. -/
theorem runPort_illegal {s : State} {p : Port} {w : Word} (ho : s.outstanding p = some (some w))
    (hd : s.deliveringAt p = false) (hi : decode p.unit w = none) :
    runPort p s = .next ((s.accept p w).respondIllegal p) := by
  simp [runPort, ho, hd, hi]

theorem State.accept_respondIllegal_enc {s : State} {k : Nat} {e : Encoder} (w : Word) (h : s.encs[k]? = some e) :
    (s.accept (.enc k) w).respondIllegal (.enc k) =
      { s with sel := k, encs := s.encs.set k ((e.take w).respond .illegal) } := by
  rw [State.accept_enc w h]
  simp [State.respondIllegal, modify_of_getElem? _ (getElem?_set_of_getElem? h _)]

theorem State.accept_respondIllegal_dec {s : State} {k : Nat} {d : Decoder} (w : Word) (h : s.decs[k]? = some d) :
    (s.accept (.dec k) w).respondIllegal (.dec k) =
      { s with sel := k, decs := s.decs.set k (Decoder.respond { d with toInst := d.toInst.take w } .illegal) } := by
  rw [State.accept_dec w h]
  simp [State.respondIllegal, modify_of_getElem? _ (getElem?_set_of_getElem? h _)]

theorem State.accept_enc? {s : State} {k : Nat} {e : Encoder} (w : Word) (h : s.encs[k]? = some e) :
    (s.accept (.enc k) w).enc? = some (e.take w) := by
  rw [State.accept_enc w h]
  exact getElem?_set_of_getElem? h _

theorem State.accept_dec? {s : State} {k : Nat} {d : Decoder} (w : Word) (h : s.decs[k]? = some d) :
    (s.accept (.dec k) w).dec? = some { d with toInst := d.toInst.take w } := by
  rw [State.accept_dec w h]
  exact getElem?_set_of_getElem? h _

theorem State.accept_setEnc {s : State} {k : Nat} {e : Encoder} (w : Word) (h : s.encs[k]? = some e) (e' : Encoder) :
    (s.accept (.enc k) w).setEnc e' = { s with sel := k, encs := s.encs.set k e' } := by
  simp [State.accept_enc w h, State.setEnc]

theorem State.accept_setDec {s : State} {k : Nat} {d : Decoder} (w : Word) (h : s.decs[k]? = some d) (d' : Decoder) :
    (s.accept (.dec k) w).setDec d' = { s with sel := k, decs := s.decs.set k d' } := by
  simp [State.accept_dec w h, State.setDec]

theorem runPort_enc_next {s t : State} {k : Nat} {e : Encoder} (he : s.encs[k]? = some e)
    (h : runPort (.enc k) s = .next t) :
    ∃ n e', EncStep k (.run (.enc k)) e e' ∧ t = { s with sel := n, encs := s.encs.set k e' } := by
  have ho := State.outstanding_enc he
  cases hcmd : e.cmd with
  | none =>
    rw [runPort_idle (hcmd ▸ ho)] at h
    cases h
    exact ⟨s.sel, e, .idle hcmd, by rw [set_of_getElem? he]⟩
  | some w =>
    rw [hcmd] at ho
    cases hi : decode .enc w with
    | none =>
      rw [runPort_illegal ho rfl hi, State.accept_respondIllegal_enc w he] at h
      cases h
      exact ⟨k, _, .illegal hcmd hi, rfl⟩
    | some i =>
      obtain ⟨f, hf⟩ := exists_encMeaning (decode_unit hi)
      rw [runPort_decoded ho rfl hi, hf.exec_eq] at h
      obtain ⟨e', hfe, rfl⟩ := onEncoder_next_of (State.accept_enc? w he) h
      exact ⟨k, e', .command hcmd hi hf hfe, State.accept_setEnc w he e'⟩

theorem runPort_dec_next {s t : State} {k : Nat} {d : Decoder} (hd : s.decs[k]? = some d)
    (h : runPort (.dec k) s = .next t) :
    ∃ n d', DecStep k (.run (.dec k)) d d' ∧ t = { s with sel := n, decs := s.decs.set k d' } := by
  have ho := State.outstanding_dec hd
  have hdel := State.deliveringAt_dec hd
  cases hcmd : d.cmd with
  | none =>
    rw [runPort_idle (hcmd ▸ ho)] at h
    cases h
    exact ⟨s.sel, d, .idle (.inl hcmd), by rw [set_of_getElem? hd]⟩
  | some w =>
    rw [hcmd] at ho
    cases hn : d.delivering with
    | true =>
      rw [runPort_held ho (hn ▸ hdel)] at h
      cases h
      exact ⟨s.sel, d, .idle (.inr hn), by rw [set_of_getElem? hd]⟩
    | false =>
      rw [hn] at hdel
      cases hi : decode .dec w with
      | none =>
        rw [runPort_illegal ho hdel hi, State.accept_respondIllegal_dec w hd] at h
        cases h
        exact ⟨k, _, .illegal hcmd hn hi, rfl⟩
      | some i =>
        obtain ⟨f, hf⟩ := exists_decMeaning (decode_unit hi)
        rw [runPort_decoded ho hdel hi, hf.exec_eq] at h
        obtain ⟨d', -, hfd, rfl⟩ := onDecoder_next_of (State.accept_dec? w hd) h
        exact ⟨k, d', .command hcmd hn hi hf hfd, State.accept_setDec w hd d'⟩

/-- A port whose run answers a next state exists. -/
theorem runPort_exists {s t : State} {p : Port} (h : runPort p s = .next t) : ∃ c, s.outstanding p = some c := by
  cases ho : s.outstanding p with
  | none => rw [runPort_absent ho] at h; cases h
  | some c => exact ⟨c, rfl⟩

/-- Everything a move that concerns an encoder can do when it answers a next state. -/
theorem doMove_enc_next {s t : State} {m : Move} {k : Nat} (hp : m.port? = some (.enc k)) (h : doMove m s = .next t) :
    ∃ n e e', s.encs[k]? = some e ∧ EncStep k m e e' ∧ t = { s with sel := n, encs := s.encs.set k e' } := by
  cases m with
  | issue p w =>
    cases hp
    obtain ⟨ho, -, rfl⟩ := issueCmd_next h
    obtain ⟨e, he, hcmd⟩ := Option.map_eq_some_iff.mp ho
    exact ⟨s.sel, e, _, he, .issue w hcmd, State.putCmd_enc w he⟩
  | run p =>
    cases hp
    obtain ⟨c, ho⟩ := runPort_exists h
    obtain ⟨e, he, -⟩ := Option.map_eq_some_iff.mp ho
    obtain ⟨n, e', hstep, ht⟩ := runPort_enc_next he h
    exact ⟨n, e, e', he, hstep, ht⟩
  | elabEnc | elabDec | finish | attach => cases hp

/-- Everything a move that concerns a decoder can do when it answers a next state. -/
theorem doMove_dec_next {s t : State} {m : Move} {k : Nat} (hp : m.port? = some (.dec k)) (h : doMove m s = .next t) :
    ∃ n d d', s.decs[k]? = some d ∧ DecStep k m d d' ∧ t = { s with sel := n, decs := s.decs.set k d' } := by
  cases m with
  | issue p w =>
    cases hp
    obtain ⟨ho, hn, rfl⟩ := issueCmd_next h
    obtain ⟨d, hd, hcmd⟩ := Option.map_eq_some_iff.mp ho
    exact ⟨s.sel, d, _, hd, .issue w hcmd (State.deliveringAt_dec hd ▸ hn), State.putCmd_dec w hd⟩
  | run p =>
    cases hp
    obtain ⟨c, ho⟩ := runPort_exists h
    obtain ⟨d, hd, -⟩ := Option.map_eq_some_iff.mp ho
    obtain ⟨n, d', hstep, ht⟩ := runPort_dec_next hd h
    exact ⟨n, d, d', hd, hstep, ht⟩
  | finish j =>
    cases hp
    obtain ⟨d, hd, ⟨hn, rfl⟩ | ⟨hn, rfl⟩⟩ := finishConsumer_next h
    · exact ⟨s.sel, d, _, hd, .finish hn, rfl⟩
    · exact ⟨t.sel, d, d, hd, .noFinish hn, by rw [set_of_getElem? hd]⟩
  | attach j c =>
    cases hp
    obtain ⟨d, hd, rfl⟩ := attachConsumer_next h
    exact ⟨s.sel, d, _, hd, .attach c, rfl⟩
  | elabEnc | elabDec => cases hp

/-- Whatever the rest of the state is, the move makes the step. -/
theorem doMove_of_encStep {s : State} {m : Move} {k : Nat} {e e' : Encoder} (he : s.encs[k]? = some e)
    (h : EncStep k m e e') : ∃ n, doMove m s = .next { s with sel := n, encs := s.encs.set k e' } := by
  have ho := State.outstanding_enc he
  cases h with
  | issue w hcmd => exact ⟨s.sel, (issueCmd_idle w (hcmd ▸ ho) rfl).trans (by rw [State.putCmd_enc w he])⟩
  | idle hcmd => exact ⟨s.sel, (runPort_idle (hcmd ▸ ho)).trans (by rw [set_of_getElem? he])⟩
  | @command _ _ w _ _ hcmd hi hf hfe =>
    refine ⟨k, (runPort_decoded (p := .enc k) (hcmd ▸ ho) rfl hi).trans ?_⟩
    rw [hf.exec_eq, onEncoder_ok (State.accept_enc? w he) hfe, State.accept_setEnc w he]
  | @illegal _ w hcmd hi =>
    exact ⟨k, (runPort_illegal (p := .enc k) (hcmd ▸ ho) rfl hi).trans (by rw [State.accept_respondIllegal_enc w he])⟩

/-- Whatever the rest of the state is, the move makes the step. -/
theorem doMove_of_decStep {s : State} {m : Move} {k : Nat} {d d' : Decoder} (hd : s.decs[k]? = some d)
    (h : DecStep k m d d') : ∃ n, doMove m s = .next { s with sel := n, decs := s.decs.set k d' } := by
  have ho := State.outstanding_dec hd
  have hdel := State.deliveringAt_dec hd
  cases h with
  | issue w hcmd hn =>
    exact ⟨s.sel, (issueCmd_idle w (hcmd ▸ ho) (hn ▸ hdel)).trans (by rw [State.putCmd_dec w hd])⟩
  | idle hidle =>
    have hrun : runPort (.dec k) s = .next s := by
      cases hcmd : d.cmd with
      | none => exact runPort_idle (hcmd ▸ ho)
      | some w => exact runPort_held (hcmd ▸ ho) ((hidle.resolve_left (by simp [hcmd])) ▸ hdel)
    exact ⟨s.sel, hrun.trans (by rw [set_of_getElem? hd])⟩
  | @command _ _ w _ _ hcmd hn hi hf hfd =>
    refine ⟨k, (runPort_decoded (p := .dec k) (hcmd ▸ ho) (hn ▸ hdel) hi).trans ?_⟩
    rw [hf.exec_eq, onDecoder_ok (State.accept_dec? w hd) hn hfd, State.accept_setDec w hd]
  | @illegal _ w hcmd hn hi =>
    exact ⟨k, (runPort_illegal (p := .dec k) (hcmd ▸ ho) (hn ▸ hdel) hi).trans
      (by rw [State.accept_respondIllegal_dec w hd])⟩
  | finish hn => exact ⟨s.sel, by simp [doMove, finishConsumer, hd, hn]⟩
  | noFinish hn => exact ⟨s.sel, by simp [doMove, finishConsumer, hd, hn, set_of_getElem? hd]⟩
  | attach c => exact ⟨s.sel, by simp [doMove, attachConsumer, hd]⟩

/-! ## The configuration -/

/-- v has the six configuration bytes, CAP and ERR_COMBINE of u. -/
def Inst.SameConfig (u v : Inst) : Prop := v.lut = u.lut ∧ v.cap = u.cap ∧ v.errCombine = u.errCombine

theorem Inst.SameConfig.refl (u : Inst) : u.SameConfig u := ⟨rfl, rfl, rfl⟩

theorem EncMeaning.sameConfig {i : Instr} {f : Encoder → Except Fault Encoder} {e e' : Encoder} (hf : EncMeaning i f)
    (h : f e = .ok e') : Inst.SameConfig e e' := by
  obtain ⟨b, u, -, hu, -, rfl⟩ | ⟨-, rfl⟩ | ⟨-, r, rfl⟩ := hf.next h
  · exact ⟨hu.lut, hu.cap, hu.errCombine⟩
  · exact ⟨rfl, rfl, rfl⟩
  · exact ⟨rfl, rfl, rfl⟩

theorem EncStep.sameConfig {k : Nat} {m : Move} {e e' : Encoder} (h : EncStep k m e e') : Inst.SameConfig e e' := by
  cases h with
  | command _ _ hf hfe =>
    obtain ⟨hlut, hcap, hcomb⟩ := hf.sameConfig hfe
    exact ⟨hlut, hcap, hcomb⟩
  | issue | idle | illegal => exact ⟨rfl, rfl, rfl⟩

theorem DecStep.sameConfig {k : Nat} {m : Move} {d d' : Decoder} (h : DecStep k m d d') :
    Inst.SameConfig d.toInst d'.toInst := by
  cases h with
  | command _ _ _ hf hfd =>
    obtain ⟨hlut, hcap, hcomb, -, -, -⟩ := hf.framed hfd
    exact ⟨hlut, hcap, hcomb⟩
  | issue | idle | illegal | finish | noFinish | attach => exact ⟨rfl, rfl, rfl⟩

/-- All instances of s are still in t, with the same configuration. -/
structure State.KeepsConfig (s t : State) : Prop where
  encs : ∀ (k : Nat) (e : Encoder), s.encs[k]? = some e → ∃ e', t.encs[k]? = some e' ∧ Inst.SameConfig e e'
  decs : ∀ (k : Nat) (d : Decoder), s.decs[k]? = some d → ∃ d', t.decs[k]? = some d' ∧
    Inst.SameConfig d.toInst d'.toInst

theorem doMove_keepsConfig {s t : State} {m : Move} (h : doMove m s = .next t) : s.KeepsConfig t := by
  cases hp : m.port? with
  | none =>
    cases m with
    | elabEnc p =>
      obtain ⟨-, rfl⟩ := elaborateEnc_next h
      exact ⟨fun _ e he => ⟨e, getElem?_append_of_getElem? he _, .refl e⟩, fun _ d hd => ⟨d, hd, .refl d.toInst⟩⟩
    | elabDec p =>
      obtain ⟨-, rfl⟩ := elaborateDec_next h
      exact ⟨fun _ e he => ⟨e, he, .refl e⟩, fun _ d hd => ⟨d, getElem?_append_of_getElem? hd _, .refl d.toInst⟩⟩
    | issue | run | finish | attach => cases hp
  | some p =>
    cases p with
    | enc k =>
      obtain ⟨n, e, e', he, hstep, rfl⟩ := doMove_enc_next hp h
      exact ⟨fun _ _ => exists_getElem?_set Inst.SameConfig.refl he hstep.sameConfig, fun _ d hd => ⟨d, hd, .refl _⟩⟩
    | dec k =>
      obtain ⟨n, d, d', hd, hstep, rfl⟩ := doMove_dec_next hp h
      exact ⟨fun _ e he => ⟨e, he, .refl e⟩,
        fun _ _ => exists_getElem?_set (R := fun d d' => d.toInst.SameConfig d'.toInst) (fun d => .refl d.toInst) hd
          hstep.sameConfig⟩

/-- Settles O53: a step is an idle one or a move, and each kind of move keeps every configuration. -/
theorem configurationNeverChanges : Obligations.ConfigurationNeverChanges := by
  unfold Obligations.ConfigurationNeverChanges
  intro s t h
  cases hsched : s.sched with
  | nil =>
    rw [step_nil hsched] at h
    cases h
    exact ⟨fun _ e he => ⟨e, he, Inst.SameConfig.refl e⟩, fun _ d hd => ⟨d, hd, Inst.SameConfig.refl d.toInst⟩⟩
  | cons m ms =>
    rw [step_cons hsched] at h
    obtain ⟨hencs, hdecs⟩ := doMove_keepsConfig h
    exact ⟨hencs, hdecs⟩

/-! ## The other instances -/

/-- The encoder or decoder at a port, or its absence, is the same in two states. -/
structure State.SameAt (s t : State) (p : Port) : Prop where
  enc : ∀ k, p = .enc k → s.encs[k]? = t.encs[k]?
  dec : ∀ k, p = .dec k → s.decs[k]? = t.decs[k]?

theorem State.SameAt.symm {s t : State} {p : Port} (h : s.SameAt t p) : t.SameAt s p :=
  ⟨fun k hk => (h.enc k hk).symm, fun k hk => (h.dec k hk).symm⟩

theorem State.SameAt.trans {s t u : State} {p : Port} (h : s.SameAt t p) (h' : t.SameAt u p) : s.SameAt u p :=
  ⟨fun k hk => (h.enc k hk).trans (h'.enc k hk), fun k hk => (h.dec k hk).trans (h'.dec k hk)⟩

/-- The state t differs from s at the port p alone, and in the selection. -/
structure State.OnlyAt (p : Port) (s t : State) : Prop where
  sched      : t.sched = s.sched
  encsLength : t.encs.length = s.encs.length
  decsLength : t.decs.length = s.decs.length
  elsewhere  : ∀ q, q ≠ p → t.SameAt s q

/-- A move changes only what is at its port. -/
theorem doMove_onlyAt {s t : State} {m : Move} {p : Port} (hp : m.port? = some p) (h : doMove m s = .next t) :
    State.OnlyAt p s t := by
  cases p with
  | enc k =>
    obtain ⟨n, e, e', -, -, rfl⟩ := doMove_enc_next hp h
    exact ⟨rfl, List.length_set, rfl,
      fun q hq => ⟨fun j hj => List.getElem?_set_ne fun hk => hq (hj.trans (congrArg _ hk.symm)), fun _ _ => rfl⟩⟩
  | dec k =>
    obtain ⟨n, d, d', -, -, rfl⟩ := doMove_dec_next hp h
    exact ⟨rfl, rfl, List.length_set,
      fun q hq => ⟨fun _ _ => rfl, fun j hj => List.getElem?_set_ne fun hk => hq (hj.trans (congrArg _ hk.symm))⟩⟩

/-- A move depends only on what is at its port. -/
theorem doMove_congr {s t s' : State} {m : Move} {p : Port} (hp : m.port? = some p) (hs : s.SameAt s' p)
    (h : doMove m s = .next t) : ∃ t', doMove m s' = .next t' ∧ t.SameAt t' p := by
  cases p with
  | enc k =>
    obtain ⟨n, e, e', he, hstep, rfl⟩ := doMove_enc_next hp h
    have he' : s'.encs[k]? = some e := (hs.enc k rfl).symm.trans he
    obtain ⟨n', h'⟩ := doMove_of_encStep he' hstep
    refine ⟨_, h', fun j hj => ?_, nofun⟩
    cases hj
    exact (getElem?_set_of_getElem? he e').trans (getElem?_set_of_getElem? he' e').symm
  | dec k =>
    obtain ⟨n, d, d', hd, hstep, rfl⟩ := doMove_dec_next hp h
    have hd' : s'.decs[k]? = some d := (hs.dec k rfl).symm.trans hd
    obtain ⟨n', h'⟩ := doMove_of_decStep hd' hstep
    refine ⟨_, h', nofun, fun j hj => ?_⟩
    cases hj
    exact (getElem?_set_of_getElem? hd d').trans (getElem?_set_of_getElem? hd' d').symm

/-- Settles O54: a move changes only what is at its port. -/
theorem moveTouchesOnlyItsInstance : Obligations.MoveTouchesOnlyItsInstance := by
  unfold Obligations.MoveTouchesOnlyItsInstance
  intro s t m ms p hsched hp h
  rw [step_cons hsched] at h
  obtain ⟨-, hencs, hdecs, helse⟩ := doMove_onlyAt hp h
  exact ⟨hencs, hdecs, fun k hk => (helse (.enc k) hk.symm).enc k rfl, fun k hk => (helse (.dec k) hk.symm).dec k rfl⟩

/-! ## Two moves -/

theorem Core.run_succ_next {M : Host.Core} {s t : M.State} {k : Nat} :
    M.run (k + 1) s = .next t ↔ ∃ u, M.step s = .next u ∧ M.run k u = .next t := by
  simp only [Host.Core.run]
  cases M.step s with
  | next u => exact ⟨fun h => ⟨u, rfl, h⟩, fun ⟨_, hu, h⟩ => by cases hu; exact h⟩
  | fault r => exact ⟨nofun, nofun⟩
  | refused r => exact ⟨nofun, nofun⟩

/-- Two steps over a schedule that begins with two moves, the first at a port, are the two moves. -/
theorem run_two_moves {s t : State} {m m' : Move} {ms : List Move} {p : Port} (hp : m.port? = some p) :
    Host.Core.run Sys2Proof.core 2 ({ s with sched := m :: m' :: ms } : State) = .next t ↔
      ∃ a, doMove m { s with sched := m' :: ms } = .next a ∧ doMove m' { a with sched := ms } = .next t := by
  have hstep {a : State} (ha : doMove m { s with sched := m' :: ms } = .next a) :
      step a = doMove m' { a with sched := ms } := step_cons (doMove_onlyAt hp ha).sched
  constructor
  · intro h
    obtain ⟨a, ha, h⟩ := Core.run_succ_next.mp h
    obtain ⟨u, hu, h⟩ := Core.run_succ_next.mp h
    cases h
    exact ⟨a, ha, (hstep ha).symm.trans hu⟩
  · rintro ⟨a, ha, h⟩
    exact Core.run_succ_next.mpr ⟨a, ha, Core.run_succ_next.mpr ⟨t, (hstep ha).trans h, rfl⟩⟩

/-- Settles O55: at each of the two ports is what its own move makes of it, and at every other port nothing changes. -/
theorem movesOfDifferentInstancesCommute : Obligations.MovesOfDifferentInstancesCommute := by
  unfold Obligations.MovesOfDifferentInstancesCommute
  intro s t m m' ms p p' hp hp' hne h
  obtain ⟨a, hma, hmt⟩ := (run_two_moves hp).mp h
  have ha (q : Port) (hq : q ≠ p) : a.SameAt s q := { (doMove_onlyAt hp hma).elsewhere q hq with }
  have ht (q : Port) (hq : q ≠ p') : t.SameAt a q := { (doMove_onlyAt hp' hmt).elsewhere q hq with }
  obtain ⟨b, hmb, htb⟩ := doMove_congr (s := { a with sched := ms }) (s' := { s with sched := m :: ms }) hp'
    { ha p' hne.symm with } hmt
  have hb (q : Port) (hq : q ≠ p') : b.SameAt s q := { (doMove_onlyAt hp' hmb).elsewhere q hq with }
  obtain ⟨t', hmt', hat'⟩ := doMove_congr (s := { s with sched := m' :: ms }) (s' := { b with sched := ms }) hp
    { (hb p hne).symm with } hma
  have ht' (q : Port) (hq : q ≠ p) : t'.SameAt b q := { (doMove_onlyAt hp hmt').elsewhere q hq with }
  have hsame (q : Port) : t'.SameAt t q := by
    by_cases hq : q = p
    · subst hq
      exact hat'.symm.trans (ht q hne).symm
    · by_cases hq' : q = p'
      · subst hq'
        exact (ht' q hq).trans htb.symm
      · exact (ht' q hq).trans ((hb q hq').trans ((ha q hq).symm.trans (ht q hq').symm))
  exact ⟨t', (run_two_moves hp').mpr ⟨b, hmb, hmt'⟩, List.ext_getElem? fun k => (hsame (.enc k)).enc k rfl,
    List.ext_getElem? fun k => (hsame (.dec k)).dec k rfl,
    (doMove_onlyAt hp hmt').sched.trans (doMove_onlyAt hp' hmt).sched.symm⟩

end Sys2Proof.Machine
end

section
/-! PROOFS. The statements from a good state: the state after reset, that no step faults, and that a host that waits gets one
response for each word. -/

namespace Sys2Proof.Machine

/-- Settles O17: the parameters of State.reset are legal, and what is elaborated with legal parameters is good. -/
theorem resetStateIsGood : Obligations.ResetStateIsGood := by
  unfold Obligations.ResetStateIsGood
  have hwf : Config.resetParams.wf = true := ElabParams.wf_iff.mpr ⟨by decide, le_rfl⟩
  exact ⟨List.forall_mem_singleton.mpr (Encoder.elaborated_inv hwf),
    List.forall_mem_singleton.mpr (Decoder.elaborated_inv hwf)⟩

/-! ## No fault -/

theorem onEncoder_fault {s : State} {f : Encoder → Except Fault Encoder} {r : Fault} (h : onEncoder s f = .fault r) :
    ∃ e, s.enc? = some e ∧ f e = .error r := by
  unfold onEncoder at h
  split at h
  · cases h
  · next e he =>
    split at h
    · cases h
    · next hf => cases h; exact ⟨e, he, hf⟩

theorem onDecoder_fault {s : State} {f : Decoder → Except Fault Decoder} {r : Fault} (h : onDecoder s f = .fault r) :
    ∃ d, s.dec? = some d ∧ f d = .error r := by
  unfold onDecoder at h
  split at h
  · cases h
  · next d hd =>
    split at h
    · cases h
    · split at h
      · cases h
      · next hf => cases h; exact ⟨d, hd, hf⟩

/-- Every command completes on a good encoder or decoder, so it does not fault. -/
theorem exec_ne_fault {s : State} (hs : s.Inv) (i : Instr) (r : Fault) : exec i s ≠ .fault r := by
  intro h
  obtain ⟨f, hf⟩ | ⟨f, hf⟩ := encMeaning_or_decMeaning i
  · obtain ⟨e, he, hfe⟩ := onEncoder_fault ((hf.exec_eq s).symm.trans h)
    obtain ⟨e', hok⟩ := hf.completes (hs.encs e (List.mem_of_getElem? he)).base.filled
    rw [hok] at hfe
    cases hfe
  · obtain ⟨d, hd, hfd⟩ := onDecoder_fault ((hf.exec_eq s).symm.trans h)
    obtain ⟨d', hok⟩ := hf.completes (hs.decs d (List.mem_of_getElem? hd)).base.filled
    rw [hok] at hfd
    cases hfd

/-- The run of a port faults only in a command. -/
theorem runPort_fault {s : State} {p : Port} {r : Fault} (h : runPort p s = .fault r) :
    ∃ w i, exec i (s.accept p w) = .fault r := by
  unfold runPort at h
  split at h
  · cases h
  · cases h
  · next w _ =>
    split at h
    · cases h
    · split at h
      · next i _ => exact ⟨w, i, h⟩
      · cases h

/-- A move faults only in the run of a port. -/
theorem doMove_fault {s : State} {m : Move} {r : Fault} (h : doMove m s = .fault r) : ∃ p, runPort p s = .fault r := by
  cases m with
  | run p => exact ⟨p, h⟩
  | elabEnc p | elabDec p => simp only [doMove, elaborateEnc, elaborateDec] at h; split at h <;> cases h
  | issue p w =>
    simp only [doMove, issueCmd] at h
    split at h
    · cases h
    · split at h
      · cases h
      · split at h <;> cases h
  | finish k =>
    simp only [doMove, finishConsumer] at h
    split at h
    · cases h
    · split at h <;> cases h
  | attach k c => simp only [doMove, attachConsumer] at h; split at h <;> cases h

/-- Settles O20: a step faults only in a command whose word has just been taken, and taking it keeps the state good. -/
theorem goodStateNeverFaults : Obligations.GoodStateNeverFaults := by
  unfold Obligations.GoodStateNeverFaults
  intro s r hs h
  cases hsched : s.sched with
  | nil => rw [step_nil hsched] at h; cases h
  | cons m ms =>
    rw [step_cons hsched] at h
    obtain ⟨p, hrun⟩ := doMove_fault h
    obtain ⟨w, i, hexec⟩ := runPort_fault hrun
    have htaken : State.Inv { s with sched := ms } := ⟨hs.encs, hs.decs⟩
    exact exec_ne_fault (State.accept_keeps_inv htaken p w) i r hexec

/-! ## A host that waits for each response -/

theorem Exchanges.cons {w : Word} {ws : List Word} {es evs : List Event} (h : Exchanges [w] es) (rest : Exchanges ws evs) :
    Exchanges (w :: ws) (es ++ evs) := by
  cases h with
  | plain _ r hnil => cases hnil; exact .plain w r rest
  | withDelivery _ bs len err r hnil => cases hnil; exact .withDelivery w bs len err r rest

/-- An encoder with a word outstanding answers it with one exchange. -/
theorem Encoder.exchange {e : Encoder} (he : Inst.Filled e) (k : Nat) {w : Word} (hcmd : e.cmd = some w) :
    ∃ e' evs, EncStep k (.run (.enc k)) e e' ∧ e'.cmd = none ∧ Exchanges [w] evs ∧ e'.obs = e.obs ++ evs := by
  cases hi : decode .enc w with
  | none => exact ⟨_, [.cmd w, .rsp .illegal], .illegal hcmd hi, rfl, .plain w _ .nil, by simp⟩
  | some i =>
    obtain ⟨f, hf⟩ := exists_encMeaning (decode_unit hi)
    obtain ⟨e', hfe⟩ := hf.completes (e := e.take w) { he with }
    obtain ⟨hcmd', r, hobs⟩ := hf.responds hfe
    exact ⟨e', [.cmd w, .rsp r], .command hcmd hi hf hfe, hcmd', .plain w r .nil, by simp [hobs]⟩

/-- A decoder with a word outstanding and a prompt consumer answers it with one exchange. -/
theorem Decoder.exchange {d : Decoder} (hd : d.toInst.Filled) (hprompt : d.Prompt) (k : Nat) {w : Word}
    (hcmd : d.cmd = some w) :
    ∃ d' evs, DecStep k (.run (.dec k)) d d' ∧ d'.cmd = none ∧ d'.Prompt ∧ Exchanges [w] evs ∧
      d'.obs = d.obs ++ evs := by
  cases hi : decode .dec w with
  | none =>
    exact ⟨_, [.cmd w, .rsp .illegal], .illegal hcmd hprompt.idle hi, rfl, { hprompt with }, .plain w _ .nil, by simp⟩
  | some i =>
    obtain ⟨f, hf⟩ := exists_decMeaning (decode_unit hi)
    obtain ⟨d', hfd⟩ := hf.completes (d := { d with toInst := d.toInst.take w }) { hd with }
    obtain ⟨hprompt', hcmd', r, hobs | ⟨bs, len, err, hobs⟩⟩ :=
      hf.responds (d := { d with toInst := d.toInst.take w }) { hprompt with } hfd
    · exact ⟨d', [.cmd w, .rsp r], .command hcmd hprompt.idle hi hf hfd, hcmd', hprompt', .plain w r .nil,
        by simp [hobs]⟩
    · exact ⟨d', [.cmd w, .dlv bs len err, .rsp r], .command hcmd hprompt.idle hi hf hfd, hcmd', hprompt',
        .withDelivery w bs len err r .nil, by simp [hobs]⟩

/-- A good state in which the port p waits for a word, its consumer prompt, after the events evs. -/
structure State.Waiting (s : State) (p : Port) (evs : List Event) : Prop where
  inv         : s.Inv
  outstanding : s.outstanding p = some none
  prompt      : s.promptAt p
  events      : s.events p = some evs

theorem State.events_enc {s : State} {k : Nat} {e : Encoder} (h : s.encs[k]? = some e) :
    s.events (.enc k) = some e.obs := by
  simp [State.events, h]

theorem State.events_dec {s : State} {k : Nat} {d : Decoder} (h : s.decs[k]? = some d) :
    s.events (.dec k) = some d.obs := by
  simp [State.events, h]

/-- In a good state a delivery in progress has its DEC.FEED outstanding, so an idle decoder makes none. -/
theorem Decoder.Inv.idle {d : Decoder} (hd : d.Inv) (hcmd : d.cmd = none) : d.delivering = false := by
  cases hn : d.delivering with
  | false => rfl
  | true =>
    obtain ⟨-, -, hsome⟩ := hd.inDelivery hn
    rw [hcmd] at hsome
    cases hsome

theorem step_of_encStep {s : State} {m : Move} {ms : List Move} {k : Nat} {e e' : Encoder} (hsched : s.sched = m :: ms)
    (he : s.encs[k]? = some e) (h : EncStep k m e e') :
    ∃ t, step s = .next t ∧ t.sched = ms ∧ t.encs[k]? = some e' := by
  obtain ⟨n, hmove⟩ := doMove_of_encStep (s := { s with sched := ms }) he h
  exact ⟨_, (step_cons hsched).trans hmove, rfl, getElem?_set_of_getElem? he e'⟩

theorem step_of_decStep {s : State} {m : Move} {ms : List Move} {k : Nat} {d d' : Decoder} (hsched : s.sched = m :: ms)
    (hd : s.decs[k]? = some d) (h : DecStep k m d d') :
    ∃ t, step s = .next t ∧ t.sched = ms ∧ t.decs[k]? = some d' := by
  obtain ⟨n, hmove⟩ := doMove_of_decStep (s := { s with sched := ms }) hd h
  exact ⟨_, (step_cons hsched).trans hmove, rfl, getElem?_set_of_getElem? hd d'⟩

/-- The host issues a word to a waiting encoder, the encoder runs it and waits again, one exchange later. -/
theorem State.Waiting.exchange_enc {s : State} {k : Nat} {evs0 : List Event} {w : Word} {ms : List Move}
    (hs : s.Waiting (.enc k) evs0) (hsched : s.sched = .issue (.enc k) w :: .run (.enc k) :: ms) :
    ∃ u t evs, step s = .next u ∧ step u = .next t ∧ t.sched = ms ∧ Exchanges [w] evs ∧
      t.Waiting (.enc k) (evs0 ++ evs) := by
  obtain ⟨e, he, hcmd⟩ := Option.map_eq_some_iff.mp hs.outstanding
  obtain rfl : e.obs = evs0 := Option.some.inj ((State.events_enc he).symm.trans hs.events)
  obtain ⟨u, hissue, hsched', he1⟩ := step_of_encStep hsched he (.issue w hcmd)
  have hu := stepKeepsStateGood _ _ hs.inv hissue
  obtain ⟨e', evs, hstep, hcmd', hevs, hobs⟩ :=
    Encoder.exchange (hu.encs _ (List.mem_of_getElem? he1)).base.filled k rfl
  obtain ⟨t, hrun, ht, he2⟩ := step_of_encStep hsched' he1 hstep
  exact ⟨u, t, evs, hissue, hrun, ht, hevs,
    { inv := stepKeepsStateGood _ _ hu hrun
      outstanding := hcmd' ▸ State.outstanding_enc he2
      prompt := trivial
      events := hobs ▸ State.events_enc he2 }⟩

/-- The host issues a word to a waiting decoder, the decoder runs it and waits again, one exchange later. -/
theorem State.Waiting.exchange_dec {s : State} {k : Nat} {evs0 : List Event} {w : Word} {ms : List Move}
    (hs : s.Waiting (.dec k) evs0) (hsched : s.sched = .issue (.dec k) w :: .run (.dec k) :: ms) :
    ∃ u t evs, step s = .next u ∧ step u = .next t ∧ t.sched = ms ∧ Exchanges [w] evs ∧
      t.Waiting (.dec k) (evs0 ++ evs) := by
  obtain ⟨d, hd, hcmd⟩ := Option.map_eq_some_iff.mp hs.outstanding
  obtain rfl : d.obs = evs0 := Option.some.inj ((State.events_dec hd).symm.trans hs.events)
  have hprompt : d.Prompt := ⟨hs.prompt d hd, (hs.inv.decs d (List.mem_of_getElem? hd)).idle hcmd⟩
  obtain ⟨u, hissue, hsched', hd1⟩ := step_of_decStep hsched hd (.issue w hcmd hprompt.idle)
  have hu := stepKeepsStateGood _ _ hs.inv hissue
  obtain ⟨d', evs, hstep, hcmd', hprompt', hevs, hobs⟩ :=
    Decoder.exchange (hu.decs _ (List.mem_of_getElem? hd1)).base.filled { hprompt with } k rfl
  obtain ⟨t, hrun, ht, hd2⟩ := step_of_decStep hsched' hd1 hstep
  exact ⟨u, t, evs, hissue, hrun, ht, hevs,
    { inv := stepKeepsStateGood _ _ hu hrun
      outstanding := hcmd' ▸ State.outstanding_dec hd2
      prompt := fun d'' hd'' => Option.some.inj (hd2.symm.trans hd'') ▸ hprompt'.consumer
      events := hobs ▸ State.events_dec hd2 }⟩

theorem State.Waiting.exchange {s : State} {p : Port} {evs0 : List Event} {w : Word} {ms : List Move}
    (hs : s.Waiting p evs0) (hsched : s.sched = .issue p w :: .run p :: ms) :
    ∃ u t evs, step s = .next u ∧ step u = .next t ∧ t.sched = ms ∧ Exchanges [w] evs ∧ t.Waiting p (evs0 ++ evs) := by
  cases p with
  | enc k => exact hs.exchange_enc hsched
  | dec k => exact hs.exchange_dec hsched

/-- A host that sends words to a waiting port gets an exchange for each, and leaves the port waiting. -/
theorem State.Waiting.exchanges {p : Port} {ms : List Move} (ws : List Word) : ∀ {s : State} {evs0 : List Event},
    s.Waiting p evs0 → s.sched = hostMoves p ws ++ ms →
    ∃ t evs, Host.Core.run Sys2Proof.core (2 * ws.length) s = .next t ∧ t.sched = ms ∧ Exchanges ws evs ∧
      t.Waiting p (evs0 ++ evs) := by
  induction ws with
  | nil => exact fun {s _} hs hsched => ⟨s, [], rfl, hsched, .nil, by rwa [List.append_nil]⟩
  | cons w ws ih =>
    intro s evs0 hs hsched
    obtain ⟨u, v, es, hissue, hrun, hv, hes, hwait⟩ := hs.exchange hsched
    obtain ⟨t, evs, hrest, ht, hevs, hwait'⟩ := ih hwait hv
    refine ⟨t, es ++ evs, ?_, ht, hes.cons hevs, by rwa [← List.append_assoc]⟩
    exact Core.run_succ_next.mpr ⟨u, hissue, Core.run_succ_next.mpr ⟨v, hrun, hrest⟩⟩

/-- Settles O56: by induction on the words, an exchange for each. -/
theorem everyCommandGetsOneResponse : Obligations.EveryCommandGetsOneResponse := by
  unfold Obligations.EveryCommandGetsOneResponse
  intro s p ws ms evs0 hs ho hprompt hev
  have hwait : State.Waiting { s with sched := hostMoves p ws ++ ms } p evs0 := by
    cases p with
    | enc k => exact ⟨⟨hs.encs, hs.decs⟩, ho, hprompt, hev⟩
    | dec k => exact ⟨⟨hs.encs, hs.decs⟩, ho, hprompt, hev⟩
  obtain ⟨t, evs, hrun, ht, hevs, hwait'⟩ := hwait.exchanges ws rfl
  exact ⟨t, evs, hrun, ht, hwait'.outstanding, hwait'.events, hevs⟩

end Sys2Proof.Machine
end

section
/-! PROOFS. The statements on a marker fed into the last byte of room, on overlapping commands and on the commands that only
read. -/

namespace Sys2Proof.Machine

/-! ## Reading a buffer -/

/-- The i-th byte read is the one at the i-th address. -/
theorem Memory.readN_getElem? {m : Memory} {n : Nat} : ∀ {a i : Nat} {vs : List Byte},
    Memory.readN m a n = some vs → i < n → vs[i]? = Memory.read m (a + i) := by
  induction n with
  | zero => intro a i vs _ hi; exact absurd hi (Nat.not_lt_zero i)
  | succ n ih =>
    intro a i vs h hi
    rw [Memory.readN] at h
    split at h
    · next v vs' hv hvs' =>
      cases h
      cases i with
      | zero => exact hv.symm
      | succ i =>
        rw [List.getElem?_cons_succ, ih hvs' (Nat.lt_of_succ_lt_succ hi), Nat.add_assoc, Nat.add_comm 1 i]
    · cases h

/-- A byte written just past the bytes read is the next one read. -/
theorem Memory.readN_write_next {m : Memory} {a n : Nat} {vs : List Byte} (v : Byte) (h : Memory.readN m a n = some vs) :
    Memory.readN (Memory.write m (a + n) v) a (n + 1) = some (vs ++ [v]) := by
  have hkept : Memory.readN (Memory.write m (a + n) v) a n = some vs :=
    (Memory.readN_congr fun b _ hb => Memory.read_write_other m v (Nat.ne_of_lt hb)).trans h
  exact Memory.readN_snoc hkept (Memory.read_write_same m (a + n) v)

/-- ENC.GETRESULT with enough room gives SOF, the bytes below CURSOR and EOF (R112, R113). -/
theorem readEncoder_whole {e : Encoder} {vs : List Byte} {dcap : Count}
    (hvs : Memory.readN e.buf 0 e.cursor.toNat = some vs) (hd : e.cursor.toNat + 2 ≤ dcap.toNat) :
    readEncoder false dcap e =
      .ok (e.respond (.data (BitVec.ofNat 24 (e.cursor.toNat + 2)) ([e.lut.sof] ++ vs ++ [e.lut.eof]))) := by
  have hdcap : dcap ≠ 0#24 := fun h => by simp [h] at hd
  have himage : frameImage e = .ok ([e.lut.sof] ++ vs ++ [e.lut.eof]) := by simp [frameImage, Inst.memRead, hvs]
  have hlen : ([e.lut.sof] ++ vs ++ [e.lut.eof]).length = e.cursor.toNat + 2 := by
    simp only [List.length_append, List.length_singleton, Memory.readN_length hvs]
    omega
  have htake : ([e.lut.sof] ++ vs ++ [e.lut.eof]).take (e.cursor.toNat + 2) = [e.lut.sof] ++ vs ++ [e.lut.eof] :=
    List.take_of_length_le hlen.le
  have hmin : min (frameSize e) dcap.toNat = e.cursor.toNat + 2 := Nat.min_eq_left hd
  simp only [readEncoder, hdcap, himage, hmin, htake, Bool.false_eq_true, or_self, if_false]

/-! ## A marker in the last byte of room -/

/-- Append into the last byte of room leaves CURSOR = CAP (R51). -/
theorem Inst.append_last {u : Inst} (v : Byte) (h : u.cursor.toNat + 1 = u.cap.toNat) :
    u.append v = .ok { u with buf := Memory.write u.buf u.cursor.toNat v, cursor := u.cap } := by
  have hroom : u.cursor.toNat < u.cap.toNat := by omega
  have hcap : u.cursor + 1#24 = u.cap := BitVec.eq_of_toNat_eq ((Inst.cursor_succ hroom).trans h)
  rw [Inst.append_room v hroom, hcap]

/-- An encoder's ERR is NONE or BUF_INSUFFICIENT, so raising BUF_INSUFFICIENT records it under both settings of ERR_COMBINE
(R24, R151). -/
theorem combineErr_bufInsufficient (m : ErrCombine) {old : ErrCode} (h : old ≠ .decodeError) :
    combineErr m old .bufInsufficient = .bufInsufficient := by
  cases old with
  | noError => exact if_pos (.inr rfl)
  | bufInsufficient => exact ite_self _
  | decodeError => exact absurd rfl h

/-- The encoder after ENC.FEED of a marker with one byte of room: ESC in the last byte, and no index (R58, R107). -/
def Encoder.withLoneEsc (e : Encoder) : Encoder :=
  { e with
    buf := Memory.write e.buf e.cursor.toNat e.lut.esc, cursor := e.cap
    err := combineErr e.errCombine e.err .bufInsufficient, cmd := none, obs := e.obs ++ [.rsp .ack] }

theorem feedEncoder_loneEsc {e : Encoder} {b : Byte} (hb : isMarker e.lut b = true)
    (hroom : e.cursor.toNat + 1 = e.cap.toNat) : feedEncoder b e = .ok e.withLoneEsc := by
  obtain ⟨i, hi⟩ := Option.isSome_iff_exists.mp hb
  exact feedEncoder_marker hi (Inst.append_last e.lut.esc hroom) (Inst.append_full i rfl)

/-- Settles O22: the append of ESC takes the last byte, the append of the index is refused, and the readout follows. -/
theorem partialEscapeLeavesLoneEsc : Obligations.PartialEscapeLeavesLoneEsc := by
  unfold Obligations.PartialEscapeLeavesLoneEsc
  intro s e b hs he hb hroom
  obtain ⟨vs, hvs⟩ := Memory.readN_isSome (m := e.buf) (a := 0) fun a _ ha =>
    he.base.bufWritten a (by rwa [Nat.zero_add] at ha)
  have hesc := Memory.readN_write_next e.lut.esc hvs
  rw [Nat.zero_add, hroom] at hesc
  have he' := State.setEnc_enc? hs e.withLoneEsc
  refine ⟨_, e.withLoneEsc, vs, onEncoder_ok hs (feedEncoder_loneEsc hb hroom), he', rfl,
    combineErr_bufInsufficient _ he.noDecodeError, ?_, Memory.readN_length hvs, fun a ha => ?_, fun dcap hd => ?_⟩
  · rw [← hroom]
    exact Memory.read_write_same e.buf e.cursor.toNat e.lut.esc
  · rw [Memory.readN_getElem? hvs ha, Nat.zero_add]
  · have hread := onEncoder_ok he' (readEncoder_whole (e := e.withLoneEsc) hesc hd)
    rw [← List.append_assoc, List.append_assoc _ [e.lut.esc]] at hread
    exact hread

/-! ## Overlapping commands -/

theorem issueCmd_overlapping {s : State} {p : Port} {c : Option Word} (w : Word) (ho : s.outstanding p = some c)
    (hd : s.deliveringAt p = false) (hc : c ≠ none) : issueCmd p w s = .refused .overlappingCommand := by
  simp [issueCmd, ho, hd, Option.isSome_iff_ne_none.mpr hc]

/-- Settles O13: an issue to an idle port and to a port with a command outstanding, on an encoder and on a decoder. -/
theorem overlappingCommandIsRefused : Obligations.OverlappingCommandIsRefused := by
  unfold Obligations.OverlappingCommandIsRefused
  constructor
  · intro s k ms e w hs he
    have ho : State.outstanding { s with sched := ms } (.enc k) = some e.cmd := State.outstanding_enc he
    rw [step_cons hs]
    refine ⟨fun hcmd => ?_, issueCmd_overlapping w ho rfl⟩
    exact (issueCmd_idle w (hcmd ▸ ho) rfl).trans (congrArg _ (State.putCmd_enc w he))
  · intro s k ms d w hs hd hn
    have ho : State.outstanding { s with sched := ms } (.dec k) = some d.cmd := State.outstanding_dec hd
    have hidle : State.deliveringAt { s with sched := ms } (.dec k) = false := hn ▸ State.deliveringAt_dec hd
    rw [step_cons hs]
    refine ⟨fun hcmd => ?_, issueCmd_overlapping w ho hidle⟩
    exact (issueCmd_idle w (hcmd ▸ ho) hidle).trans (congrArg _ (State.putCmd_dec w hd))

/-! ## The commands that only read -/

theorem Inst.respond_respond (u : Inst) (r r' : Response) :
    (u.respond r).respond r' = { u with cmd := none, obs := u.obs ++ [.rsp r, .rsp r'] } := by
  simp [Inst.respond]

theorem Decoder.respond_respond (d : Decoder) (r r' : Response) :
    (d.respond r).respond r' = { d with cmd := none, obs := d.obs ++ [.rsp r, .rsp r'] } := by
  simp [Decoder.respond, Inst.respond_respond]

/-- ENC.GETRESULT only responds, and its own response changes nothing that its answer depends on (R59). -/
theorem readEncoder_again {null : Bool} {dcap : Count} {e e' : Encoder} (h : readEncoder null dcap e = .ok e') :
    ∃ r, e' = e.respond r ∧ readEncoder null dcap e' = .ok (e'.respond r) := by
  unfold readEncoder at h
  split at h
  · next hnull => cases h; exact ⟨_, rfl, if_pos hnull⟩
  · next hnull =>
    split at h
    · next f hf =>
      cases h
      refine ⟨_, rfl, ?_⟩
      have hsame (r : Response) : frameImage (e.respond r) = .ok f := hf
      simp only [readEncoder, hnull, hsame, if_false]
      rfl
    · cases h

/-- An encoder command that only reads responds, and gives the same response again (R59). -/
theorem EncMeaning.again {i : Instr} {f : Encoder → Except Fault Encoder} {e e' : Encoder} (hf : EncMeaning i f)
    (hi : i = .encSize ∨ i = .encStatus ∨ ∃ n c, i = .encGetresult n c) (h : f e = .ok e') :
    ∃ r, e' = e.respond r ∧ f e' = .ok (e'.respond r) := by
  cases hf with
  | size => cases h; exact ⟨_, rfl, rfl⟩
  | getresult null dcap => exact readEncoder_again h
  | status => cases h; exact ⟨_, rfl, rfl⟩
  | feed | reset => simp at hi

/-- DEC.STATUS responds, and gives the same response again (R59). -/
theorem statusDecoder_again {d d' : Decoder} (h : statusDecoder d = .ok d') :
    ∃ r, d' = d.respond r ∧ statusDecoder d' = .ok (d'.respond r) := by
  cases h
  exact ⟨_, rfl, rfl⟩

/-- Settles O29: each of the four commands only responds, and responds the same after its own response. -/
theorem readingCommandsAreIdempotent : Obligations.ReadingCommandsAreIdempotent := by
  unfold Obligations.ReadingCommandsAreIdempotent
  constructor
  · intro s t e i hs hi h
    obtain ⟨f, hf⟩ := exists_encMeaning (i := i) (by obtain rfl | rfl | ⟨n, c, rfl⟩ := hi <;> rfl)
    rw [hf.exec_eq] at h
    obtain ⟨e', he', rfl⟩ := onEncoder_next_of hs h
    obtain ⟨r, rfl, hagain⟩ := hf.again hi he'
    have hexec := onEncoder_ok (State.setEnc_enc? hs (e.respond r)) hagain
    rw [State.setEnc_setEnc, Inst.respond_respond, ← hf.exec_eq] at hexec
    exact ⟨r, rfl, hexec⟩
  · intro s t d hs h
    obtain ⟨d', hn, hd', rfl⟩ := onDecoder_next_of (f := statusDecoder) hs h
    obtain ⟨r, rfl, hagain⟩ := statusDecoder_again hd'
    have hexec := onDecoder_ok (State.setDec_dec? hs (d.respond r)) hn hagain
    rw [State.setDec_setDec, Decoder.respond_respond] at hexec
    exact ⟨r, rfl, hexec⟩

end Sys2Proof.Machine
end

section
/-! PROOFS. The command words: the decoder and the encoder of words are inverse to each other, and with it the statements on
the opcode maps, the reserved words, the worked encodings and the assembler forms. -/

namespace Sys2Proof

/-! ## The fields of a command -/

/-- Field OP of a command's word (R80, R81). -/
def Instr.op : Instr → BitVec 3
  | .encFeed _ => 0b000#3
  | .encReset => 0b001#3
  | .encSize => 0b010#3
  | .encGetresult _ _ => 0b011#3
  | .encStatus => 0b100#3
  | .decFeed _ => 0b000#3
  | .decReset => 0b001#3
  | .decSetcb _ => 0b010#3
  | .decStatus => 0b100#3

/-- Field N of a command's word (R77). -/
def Instr.n : Instr → Bool
  | .encGetresult null _ => null
  | .decSetcb off => off
  | _ => false

/-- Field OPND of a command's word (R79). -/
def Instr.opnd : Instr → BitVec 24
  | .encFeed b => opndOfByte b
  | .encGetresult _ dcap => dcap
  | .decFeed b => opndOfByte b
  | _ => 0#24

theorem encode_eq_assembleWord (i : Instr) : encode i = assembleWord i.unit.bit i.op i.n i.opnd := by
  cases i <;> rfl

/-- A word is assembled from fields U, OP, N and OPND exactly when it has them and RSV = 0 (R74, R78). -/
theorem assembleWord_eq_iff {u n : Bool} {op : BitVec 3} {opnd : BitVec 24} {w : Word} :
    assembleWord u op n opnd = w ↔
      fieldU w = u ∧ fieldRsv w = 0#3 ∧ fieldOp w = op ∧ fieldN w = n ∧ fieldOpnd w = opnd := by
  constructor
  · rintro rfl
    exact ⟨fieldU_assembleWord .., fieldRsv_assembleWord .., fieldOp_assembleWord .., fieldN_assembleWord ..,
      fieldOpnd_assembleWord ..⟩
  · rintro ⟨rfl, hrsv, rfl, rfl, rfl⟩
    exact (eq_assembleWord_fields hrsv).symm

/-- The fields decide whether a word is that of a command. -/
theorem encode_eq_iff {i : Instr} {w : Word} :
    encode i = w ↔
      fieldU w = i.unit.bit ∧ fieldRsv w = 0#3 ∧ fieldOp w = i.op ∧ fieldN w = i.n ∧ fieldOpnd w = i.opnd := by
  rw [encode_eq_assembleWord, assembleWord_eq_iff]

/-! ## Decoding and encoding are inverse -/

theorem decode_enc_assembleWord (op : BitVec 3) (n : Bool) (opnd : BitVec 24) :
    decode .enc (assembleWord false op n opnd) = decodeEnc op n opnd := by
  simp [decode, UnitKind.bit, fieldU_assembleWord, fieldRsv_assembleWord, fieldOp_assembleWord, fieldN_assembleWord,
    fieldOpnd_assembleWord]

theorem decode_dec_assembleWord (op : BitVec 3) (n : Bool) (opnd : BitVec 24) :
    decode .dec (assembleWord true op n opnd) = decodeDec op n opnd := by
  simp [decode, UnitKind.bit, fieldU_assembleWord, fieldRsv_assembleWord, fieldOp_assembleWord, fieldN_assembleWord,
    fieldOpnd_assembleWord]

theorem decode_encode (i : Instr) : decode i.unit (encode i) = some i := by
  cases i with
  | encFeed b | encReset | encSize | encGetresult null dcap | encStatus =>
    refine (decode_enc_assembleWord ..).trans ?_
    simp [decodeEnc, opndHigh_opndOfByte, opndByte_opndOfByte]
  | decFeed b | decReset | decSetcb off | decStatus =>
    refine (decode_dec_assembleWord ..).trans ?_
    simp [decodeDec, opndHigh_opndOfByte, opndByte_opndOfByte]

theorem decodeEnc_fields {op : BitVec 3} {n : Bool} {opnd : BitVec 24} {i : Instr} (h : decodeEnc op n opnd = some i) :
    op = i.op ∧ n = i.n ∧ opnd = i.opnd := by
  unfold decodeEnc at h
  split_ifs at h <;> cases h <;> simp_all [Instr.op, Instr.n, Instr.opnd, opndOfByte_opndByte]

theorem decodeDec_fields {op : BitVec 3} {n : Bool} {opnd : BitVec 24} {i : Instr} (h : decodeDec op n opnd = some i) :
    op = i.op ∧ n = i.n ∧ opnd = i.opnd := by
  unfold decodeDec at h
  split_ifs at h <;> cases h <;> simp_all [Instr.op, Instr.n, Instr.opnd, opndOfByte_opndByte]

/-- A word decodes only to a command with its fields, so to the command it is the word of. -/
theorem encode_of_decode {u : UnitKind} {w : Word} {i : Instr} (h : decode u w = some i) : encode i = w := by
  have hunit := Machine.decode_unit h
  unfold decode at h
  split at h
  · cases h
  · next hlegal =>
    obtain ⟨hu, hrsv⟩ : fieldU w = u.bit ∧ fieldRsv w = 0#3 := by simpa using hlegal
    rw [encode_eq_iff, hunit]
    cases u with
    | enc => exact ⟨hu, hrsv, decodeEnc_fields h⟩
    | dec => exact ⟨hu, hrsv, decodeDec_fields h⟩

/-- A word decodes on a port exactly to the command of the port's unit that it is the word of (R82). -/
theorem decode_eq_some_iff {u : UnitKind} {w : Word} {i : Instr} :
    decode u w = some i ↔ i.unit = u ∧ encode i = w := by
  constructor
  · exact fun h => ⟨Machine.decode_unit h, encode_of_decode h⟩
  · rintro ⟨rfl, rfl⟩
    exact decode_encode i

/-- Settles O1: each command's word is assembled from fields that the port's half of the decoder reads back. -/
theorem decodeOfEncodeIsSame : Obligations.DecodeOfEncodeIsSame := decode_encode

/-- Settles O2: the unit of a decoded command is the port's, and a legal word is assembled from its fields. -/
theorem decodedWordIsItsEncoding : Obligations.DecodedWordIsItsEncoding := by
  unfold Obligations.DecodedWordIsItsEncoding
  intro u w i h
  exact ⟨decide_eq_true (Machine.decode_unit h), encode_of_decode h⟩

/-! ## Match and mask -/

theorem fieldU_and (v w : Word) : fieldU (v &&& w) = (fieldU v && fieldU w) := BitVec.getLsbD_and

theorem fieldN_and (v w : Word) : fieldN (v &&& w) = (fieldN v && fieldN w) := BitVec.getLsbD_and

theorem fieldOp_and (v w : Word) : fieldOp (v &&& w) = fieldOp v &&& fieldOp w := BitVec.extractLsb'_and

theorem fieldRsv_and (v w : Word) : fieldRsv (v &&& w) = fieldRsv v &&& fieldRsv w := BitVec.extractLsb'_and

theorem fieldOpnd_and (v w : Word) : fieldOpnd (v &&& w) = fieldOpnd v &&& fieldOpnd w := BitVec.extractLsb'_and

/-- A masked word is a match value, with RSV = 0, exactly when its masked fields are the fields of the match value. -/
theorem and_eq_iff_fields {w mask c : Word} (hc : fieldRsv c = 0#3) :
    w &&& mask = c ↔
      (fieldU w && fieldU mask) = fieldU c ∧ fieldRsv w &&& fieldRsv mask = 0#3 ∧
      fieldOp w &&& fieldOp mask = fieldOp c ∧ (fieldN w && fieldN mask) = fieldN c ∧
      fieldOpnd w &&& fieldOpnd mask = fieldOpnd c := by
  rw [eq_comm, eq_assembleWord_fields hc, assembleWord_eq_iff, ← eq_assembleWord_fields hc, fieldU_and, fieldRsv_and,
    fieldOp_and, fieldN_and, fieldOpnd_and]

/-- The operands of a FEED are those with bits 23:8 equal to 0 (R79). -/
theorem exists_eq_opndOfByte_iff {o : BitVec 24} : (∃ b, o = opndOfByte b) ↔ opndHigh o = 0#16 := by
  constructor
  · rintro ⟨b, rfl⟩
    exact opndHigh_opndOfByte b
  · exact fun h => ⟨opndByte o, (opndOfByte_opndByte h).symm⟩

/-- The mask of a FEED leaves of OPND what must be 0 (R79). -/
theorem opndHigh_eq_zero_iff {o : BitVec 24} : opndHigh o = 0#16 ↔ o &&& 0xFFFF00#24 = 0#24 := by
  constructor
  · intro h
    rw [← opndOfByte_opndByte h, opndOfByte, show 0xFFFF00#24 = 0xFFFF#16 ++ 0#8 from rfl, BitVec.and_append]
    simp
  · intro h
    have hmask (x : BitVec 16) : x &&& 0xFFFF#16 = x := BitVec.and_allOnes
    simpa [opndHigh, BitVec.extractLsb'_and, hmask] using congrArg opndHigh h

/-- A row whose mask is all ones has one word, the match value. -/
theorem decode_iff_match {u : UnitKind} {i : Instr} {w : Word} (hu : i.unit = u) :
    decode u w = some i ↔ w &&& 0xFFFFFFFF#32 = encode i := by
  rw [decode_eq_some_iff, show w &&& 0xFFFFFFFF#32 = w from BitVec.and_allOnes, eq_comm (a := w)]
  exact and_iff_right hu

/-- Settles O3: a row without free bits has one word; for any other row, both sides say which fields the word has. -/
theorem decodeFollowsMatchAndMask : Obligations.DecodeFollowsMatchAndMask := by
  unfold Obligations.DecodeFollowsMatchAndMask
  intro w
  have hop (x : BitVec 3) : x &&& 0b111#3 = x := BitVec.and_allOnes
  have hopnd (x : BitVec 24) : x &&& 0xFFFFFF#24 = x := BitVec.and_allOnes
  refine ⟨?_, decode_iff_match rfl, decode_iff_match rfl, ?_, decode_iff_match rfl, ?_, decode_iff_match rfl, ?_,
    decode_iff_match rfl⟩
  all_goals
    simp only [decode_eq_some_iff, encode_eq_iff, Instr.unit, UnitKind.bit, Instr.op, Instr.n, Instr.opnd]
    rw [and_eq_iff_fields (by decide)]
    simp [exists_eq_opndOfByte_iff, opndHigh_eq_zero_iff, fieldU, fieldRsv, fieldOp, fieldN, fieldOpnd, hop, hopnd]

/-! ## Reserved words -/

theorem decode_illegal {u : UnitKind} {w : Word} (h : fieldU w ≠ u.bit ∨ fieldRsv w ≠ 0#3) : decode u w = none := if_pos h

/-- The fields that a legal word on a port can have: those of a FEED, of a command without operands, or of the command in which
N is free, ENC.GETRESULT or DEC.SETCB (R80, R81). -/
def LegalFields : UnitKind → Word → Prop
  | .enc, w =>
    (fieldOp w = 0b000#3 ∧ fieldN w = false ∧ opndHigh (fieldOpnd w) = 0#16) ∨
    ((fieldOp w = 0b001#3 ∨ fieldOp w = 0b010#3 ∨ fieldOp w = 0b100#3) ∧ fieldN w = false ∧ fieldOpnd w = 0#24) ∨
    fieldOp w = 0b011#3
  | .dec, w =>
    (fieldOp w = 0b000#3 ∧ fieldN w = false ∧ opndHigh (fieldOpnd w) = 0#16) ∨
    ((fieldOp w = 0b001#3 ∨ fieldOp w = 0b100#3) ∧ fieldN w = false ∧ fieldOpnd w = 0#24) ∨
    (fieldOp w = 0b010#3 ∧ fieldOpnd w = 0#24)

theorem legalFields_encode (i : Instr) : LegalFields i.unit (encode i) := by
  obtain ⟨-, -, hop, hn, hopnd⟩ := encode_eq_iff.mp (rfl : encode i = encode i)
  cases i with
  | encFeed b | decFeed b => exact .inl ⟨hop, hn, hopnd ▸ opndHigh_opndOfByte b⟩
  | encReset | decReset => exact .inr (.inl ⟨.inl hop, hn, hopnd⟩)
  | encSize => exact .inr (.inl ⟨.inr (.inl hop), hn, hopnd⟩)
  | encGetresult null dcap => exact .inr (.inr hop)
  | encStatus => exact .inr (.inl ⟨.inr (.inr hop), hn, hopnd⟩)
  | decSetcb off => exact .inr (.inr ⟨hop, hopnd⟩)
  | decStatus => exact .inr (.inl ⟨.inr hop, hn, hopnd⟩)

theorem decode_eq_none_of_not_legalFields {u : UnitKind} {w : Word} (h : ¬ LegalFields u w) : decode u w = none := by
  refine Option.eq_none_iff_forall_ne_some.mpr fun i hi => h ?_
  obtain ⟨rfl, rfl⟩ := decode_eq_some_iff.mp hi
  exact legalFields_encode i

/-- A FEED's word has zeros in OPND[23:8] on both ports (R79). -/
theorem LegalFields.opndHigh_of_feed {u : UnitKind} {w : Word} (h : LegalFields u w) (hop : fieldOp w = 0b000#3) :
    opndHigh (fieldOpnd w) = 0#16 := by
  cases u with
  | enc => obtain ⟨-, -, hhigh⟩ | ⟨h1 | h2 | h4, -⟩ | h3 := h <;> simp_all
  | dec => obtain ⟨-, -, hhigh⟩ | ⟨h1 | h4, -⟩ | ⟨h2, -⟩ := h <;> simp_all

/-! ## Words as numbers -/

/-- OPND is the low part of an assembled word. -/
theorem assembleWord_eq_or (u n : Bool) (op : BitVec 3) (opnd : BitVec 24) :
    assembleWord u op n opnd = assembleWord u op n 0#24 ||| opnd.setWidth 32 := by
  refine BitVec.eq_of_getLsbD_eq fun i hi => ?_
  simp only [assembleWord, BitVec.getLsbD_append, BitVec.getLsbD_or, BitVec.getLsbD_setWidth]
  by_cases hlt : i < 24
  · simp [hlt, hi, show i < 27 by omega]
  · simp [hlt, BitVec.getLsbD_of_ge opnd i (Nat.le_of_not_lt hlt)]

theorem opndOfByte_setWidth (b : Byte) : (opndOfByte b).setWidth 32 = b.setWidth 32 := by
  have hext : opndOfByte b = b.setWidth 24 := (BitVec.setWidth_eq_append (x := b) (w := 24) (by decide)).symm
  rw [hext, BitVec.setWidth_setWidth (by decide)]

theorem encode_encFeed (b : Byte) : encode (.encFeed b) = b.setWidth 32 := by
  rw [← opndOfByte_setWidth]
  exact (assembleWord_eq_or ..).trans (BitVec.zero_or)

theorem encode_decFeed (b : Byte) : encode (.decFeed b) = 0x80000000#32 ||| b.setWidth 32 := by
  rw [← opndOfByte_setWidth]
  exact assembleWord_eq_or ..

theorem encode_encGetresult_room (dcap : Count) :
    encode (.encGetresult false dcap) = 0x30000000#32 ||| dcap.setWidth 32 :=
  assembleWord_eq_or ..

theorem encode_encGetresult_null (dcap : Count) :
    encode (.encGetresult true dcap) = 0x38000000#32 ||| dcap.setWidth 32 :=
  assembleWord_eq_or ..

/-- Settles O4: U and RSV are checked first, and any other reserved word has fields that no legal word on its port has. -/
theorem reservedWordsAreIllegal : Obligations.ReservedWordsAreIllegal := by
  unfold Obligations.ReservedWordsAreIllegal
  refine ⟨fun w hop => decode_eq_none_of_not_legalFields fun h => ?_,
    fun w hop => decode_eq_none_of_not_legalFields fun h => ?_,
    fun u w hrsv => decode_illegal (.inr hrsv), fun u w hu => decode_illegal (.inl hu),
    fun w (hn : fieldN w = true) hop => decode_eq_none_of_not_legalFields fun h => ?_,
    fun w (hn : fieldN w = true) hop => decode_eq_none_of_not_legalFields fun h => ?_,
    fun w hopnd hfeed hget => decode_eq_none_of_not_legalFields fun h => ?_,
    fun w hopnd hfeed => decode_eq_none_of_not_legalFields fun h => ?_,
    fun u w hfeed hhigh => decode_eq_none_of_not_legalFields fun h => hhigh ?_, fun c => ?_⟩
  · obtain ⟨h0, -⟩ | ⟨h1 | h2 | h4, -⟩ | h3 := h <;> simp_all
  · obtain ⟨h0, -⟩ | ⟨h1 | h4, -⟩ | ⟨h2, -⟩ := h <;> simp_all
  · obtain ⟨-, h0, -⟩ | ⟨-, h0, -⟩ | h3 := h <;> simp_all
  · obtain ⟨-, h0, -⟩ | ⟨-, h0, -⟩ | ⟨h2, -⟩ := h <;> simp_all
  · obtain ⟨h0, -⟩ | ⟨-, -, h0⟩ | h3 := h <;> contradiction
  · obtain ⟨h0, -⟩ | ⟨-, -, h0⟩ | ⟨-, h0⟩ := h <;> contradiction
  · simpa [opndHigh, fieldOpnd] using h.opndHigh_of_feed hfeed
  · rw [← encode_encGetresult_null]
    exact decode_encode (.encGetresult true c)

/-- Settles O5: each row is a closed fact about one word. -/
theorem workedEncodingsDecode : Obligations.WorkedEncodingsDecode := by
  unfold Obligations.WorkedEncodingsDecode
  decide

theorem assemble_feedblock (f : Byte → Instr) (bs : List Byte) :
    (bs.map f).map encode = bs.flatMap fun b => [encode (f b)] := by
  rw [List.map_map, List.map_eq_flatMap]
  rfl

/-- Settles O6: the words with an operand are its bits under the row's fixed bits; a feedblock is a list of FEEDs. -/
theorem assemblerFormsMakeTheirWords : Obligations.AssemblerFormsMakeTheirWords := by
  unfold Obligations.AssemblerFormsMakeTheirWords
  exact ⟨fun b => congrArg List.singleton (encode_encFeed b), rfl, rfl,
    fun c => congrArg List.singleton (encode_encGetresult_room c), rfl, rfl,
    fun b => congrArg List.singleton (encode_decFeed b), rfl, rfl, rfl, rfl, fun _ => rfl,
    assemble_feedblock .encFeed, assemble_feedblock .decFeed, rfl, rfl⟩

end Sys2Proof
end

section
/-! PROOFS. The frame on the wire: its length, and that an encoder just reset makes it; and the response to an illegal word. -/

namespace Sys2Proof.Machine

/-! ## Escaped payloads -/

theorem wireUnit_marker {t : Lut} {b i : Byte} (h : encLut t b = some i) : wireUnit t b = [t.esc, i] := by
  simp [wireUnit, h]

theorem wireUnit_plain {t : Lut} {b : Byte} (h : encLut t b = none) : wireUnit t b = [b] := by
  simp [wireUnit, h]

/-- A byte is one byte on the wire, and a marker one more (R68, R70). -/
theorem wireUnit_length (t : Lut) (b : Byte) : (wireUnit t b).length = 1 + if isMarker t b then 1 else 0 := by
  cases h : encLut t b with
  | none => simp [wireUnit_plain h, isMarker, h]
  | some i => simp [wireUnit_marker h, isMarker, h]

theorem escapePayload_length (t : Lut) (P : List Byte) : (escapePayload t P).length = P.length + markerCount t P := by
  induction P with
  | nil => rfl
  | cons b P ih =>
    simp only [escapePayload, markerCount, List.length_append, List.length_cons, wireUnit_length, ih]
    omega

/-- Settles O7: the escaped length by induction on the payload, and SOF and EOF around it. -/
theorem frameLengthCountsMarkersTwice : Obligations.FrameLengthCountsMarkersTwice := by
  unfold Obligations.FrameLengthCountsMarkersTwice
  intro t P
  exact ⟨escapePayload_length t P, by simp [wireFrame, escapePayload_length]⟩

/-- A payload without markers is its own escaped form (R68). -/
theorem escapePayload_of_no_marker {t : Lut} {P : List Byte} (h : ∀ b ∈ P, isMarker t b = false) :
    escapePayload t P = P := by
  induction P with
  | nil => rfl
  | cons b P ih =>
    obtain ⟨hb, hP⟩ := List.forall_mem_cons.mp h
    have hplain : encLut t b = none := by simpa [isMarker] using hb
    rw [escapePayload, wireUnit_plain hplain, ih hP, List.singleton_append]

/-- The frame of a single marker (R67, R68). -/
theorem wireFrame_marker {t : Lut} {b i : Byte} (h : encLut t b = some i) : wireFrame t [b] = [t.sof, t.esc, i, t.eof] := by
  simp [wireFrame, escapePayload, wireUnit_marker h]

/-! ## An encoder that makes a frame -/

/-- Since the last reset exactly the bytes vs have been appended, all with room: they are the bytes below CURSOR, and ERR is
NONE. -/
structure Inst.Holds (u : Inst) (vs : List Byte) : Prop where
  bytes : Memory.readN u.buf 0 u.cursor.toNat = some vs
  noErr : u.err = .noError

theorem Inst.Holds.cursor_eq {u : Inst} {vs : List Byte} (h : u.Holds vs) : u.cursor.toNat = vs.length :=
  (Memory.readN_length h.bytes).symm

theorem Inst.holds_nil {u : Inst} (hcur : u.cursor = 0#24) (herr : u.err = .noError) : u.Holds [] :=
  ⟨by simp [hcur, Memory.readN], herr⟩

/-- Append with room adds its byte at the end (R51). -/
theorem Inst.Holds.append {u : Inst} {vs : List Byte} (h : u.Holds vs) (v : Byte) (hroom : vs.length < u.cap.toNat) :
    ∃ u', u.append v = .ok u' ∧ u'.Holds (vs ++ [v]) := by
  rw [← h.cursor_eq] at hroom
  refine ⟨_, Inst.append_room v hroom, ?_, h.noErr⟩
  have hread := Memory.readN_write_next v h.bytes
  rwa [Nat.zero_add, ← Inst.cursor_succ hroom] at hread

/-- ENC.FEED with room for the wire unit of its byte adds it at the end (R106). -/
theorem Inst.Holds.feedEncoder {e : Encoder} {vs : List Byte} (h : Inst.Holds e vs) (b : Byte)
    (hroom : (vs ++ wireUnit e.lut b).length ≤ e.cap.toNat) :
    ∃ e', feedEncoder b e = .ok e' ∧ Inst.Holds e' (vs ++ wireUnit e.lut b) := by
  cases hb : encLut e.lut b with
  | none =>
    rw [wireUnit_plain hb] at hroom ⊢
    obtain ⟨u, hu, hheld⟩ := h.append b (by simpa using hroom)
    exact ⟨_, feedEncoder_plain hb hu, hheld.bytes, hheld.noErr⟩
  | some i =>
    rw [wireUnit_marker hb, List.append_cons] at hroom ⊢
    have hlen : vs.length + 2 ≤ e.cap.toNat := by simpa using hroom
    obtain ⟨u, hu, hesc⟩ := h.append e.lut.esc (by omega)
    obtain ⟨v, hv, hheld⟩ := hesc.append i (by simp [(Inst.append_extends hu).cap]; omega)
    exact ⟨_, feedEncoder_marker hb hu hv, hheld.bytes, hheld.noErr⟩

/-- The FEEDs of a payload with room for its escaped form add it at the end. -/
theorem execAll_encFeedblock (P : List Byte) : ∀ {s : State} {e : Encoder} {vs : List Byte},
    s.enc? = some e → Inst.Holds e vs → (vs ++ escapePayload e.lut P).length ≤ e.cap.toNat →
    ∃ t e', execAll (encFeedblock P) s = .next t ∧ t.enc? = some e' ∧ Inst.SameConfig e e' ∧
      Inst.Holds e' (vs ++ escapePayload e.lut P) := by
  induction P with
  | nil =>
    intro s e vs hs h _
    exact ⟨s, e, rfl, hs, Inst.SameConfig.refl e, by rwa [escapePayload, List.append_nil]⟩
  | cons b P ih =>
    intro s e vs hs h hroom
    rw [escapePayload, ← List.append_assoc] at hroom ⊢
    obtain ⟨e1, he1, h1⟩ := h.feedEncoder b (by rw [List.length_append] at hroom; omega)
    obtain ⟨hlut, hcap, herr⟩ := (EncMeaning.feed b).sameConfig he1
    obtain ⟨t, e', ht, he', ⟨hlut', hcap', herr'⟩, h'⟩ := ih (State.setEnc_enc? hs e1) h1 (by rwa [hlut, hcap])
    have hexec : exec (.encFeed b) s = .next (s.setEnc e1) := onEncoder_ok hs he1
    exact ⟨t, e', (execAll_cons_next hexec).trans ht, he',
      ⟨hlut'.trans hlut, hcap'.trans hcap, herr'.trans herr⟩, hlut ▸ h'⟩

/-- Settles O30: the encoder just reset holds no byte, the payload's FEEDs add its escaped form, and the readout puts SOF and
EOF around it. -/
theorem encoderMakesTheWireFrame : Obligations.EncoderMakesTheWireFrame := by
  unfold Obligations.EncoderMakesTheWireFrame
  refine ⟨fun s e P hs hcur herr hroom => ?_, fun t hse hsx hex => ?_, fun t P hP => ?_⟩
  · obtain ⟨t, e', ht, he', ⟨hlut, -⟩, hheld⟩ := execAll_encFeedblock P hs (Inst.holds_nil hcur herr) hroom
    refine ⟨t, e', ht, he', hheld.noErr, hheld.cursor_eq, fun dcap hd => ?_⟩
    have hread := readEncoder_whole hheld.bytes hd
    rw [hlut] at hread
    exact onEncoder_ok he' hread
  · exact ⟨wireFrame_marker (by simp [encLut]), wireFrame_marker (by simp [encLut, hse.symm]),
      wireFrame_marker (by simp [encLut, hsx.symm, hex.symm])⟩
  · rw [wireFrame, escapePayload_of_no_marker hP]
    rfl

/-! ## Illegal words -/

/-- Settles O12: the encoder or decoder takes the word and responds ILLEGAL, and that is all. -/
theorem illegalWordChangesNothing : Obligations.IllegalWordChangesNothing := by
  unfold Obligations.IllegalWordChangesNothing
  constructor
  · intro s k ms e w hs he hw hi
    have ho : State.outstanding { s with sched := ms } (.enc k) = some (some w) := hw ▸ State.outstanding_enc he
    calc step s = runPort (.enc k) { s with sched := ms } := step_cons hs
      _ = .next ((State.accept { s with sched := ms } (.enc k) w).respondIllegal (.enc k)) := runPort_illegal ho rfl hi
      _ = .next { s with sched := ms, sel := k, encs := s.encs.set k ((e.take w).respond .illegal) } :=
        congrArg _ (State.accept_respondIllegal_enc w he)
      _ = _ := by simp [Inst.respond, Inst.take]
  · intro s k ms d w hs hd hw hn hi
    have ho : State.outstanding { s with sched := ms } (.dec k) = some (some w) := hw ▸ State.outstanding_dec hd
    have hidle : State.deliveringAt { s with sched := ms } (.dec k) = false := hn ▸ State.deliveringAt_dec hd
    calc step s = runPort (.dec k) { s with sched := ms } := step_cons hs
      _ = .next ((State.accept { s with sched := ms } (.dec k) w).respondIllegal (.dec k)) := runPort_illegal ho hidle hi
      _ = .next { s with sched := ms, sel := k
                         decs := s.decs.set k (Decoder.respond { d with toInst := d.toInst.take w } .illegal) } :=
        congrArg _ (State.accept_respondIllegal_dec w hd)
      _ = _ := by simp [Decoder.respond, Inst.respond, Inst.take]

end Sys2Proof.Machine
end

section
/-! PROOFS. The escape-index lookup table: what the two lookups answer and that they are inverse to each other; and what follows
for the wire: a decoder that is fed the frame of a payload delivers the payload. -/

namespace Sys2Proof.Machine

/-! ## What the lookups answer -/

theorem encLut_sof (t : Lut) : encLut t t.sof = some t.idx0 := if_pos rfl

theorem encLut_eof {t : Lut} (hs : t.eof ≠ t.sof) : encLut t t.eof = some t.idx1 := by
  simp [encLut, hs]

theorem encLut_esc {t : Lut} (hs : t.esc ≠ t.sof) (he : t.esc ≠ t.eof) : encLut t t.esc = some t.idx2 := by
  simp [encLut, hs, he]

/-- A byte is no marker exactly when it differs from all three (R97, R99). -/
theorem encLut_eq_none_iff {t : Lut} {b : Byte} : encLut t b = none ↔ b ≠ t.sof ∧ b ≠ t.eof ∧ b ≠ t.esc := by
  unfold encLut
  split_ifs <;> simp [*]

theorem isMarker_iff_ne_none {t : Lut} {b : Byte} : isMarker t b = true ↔ encLut t b ≠ none :=
  Option.isSome_iff_ne_none

theorem isMarker_iff {t : Lut} {b : Byte} : isMarker t b = true ↔ b = t.sof ∨ b = t.eof ∨ b = t.esc := by
  rw [isMarker_iff_ne_none, Ne, encLut_eq_none_iff]
  tauto

theorem decLut_idx0 (t : Lut) : decLut t t.idx0 = some t.sof := if_pos rfl

theorem decLut_idx1 {t : Lut} (h0 : t.idx1 ≠ t.idx0) : decLut t t.idx1 = some t.eof := by
  simp [decLut, h0]

theorem decLut_idx2 {t : Lut} (h0 : t.idx2 ≠ t.idx0) (h1 : t.idx2 ≠ t.idx1) : decLut t t.idx2 = some t.esc := by
  simp [decLut, h0, h1]

theorem decLut_of_ne {t : Lut} {i : Byte} (h0 : i ≠ t.idx0) (h1 : i ≠ t.idx1) (h2 : i ≠ t.idx2) : decLut t i = none := by
  simp [decLut, h0, h1, h2]

/-- Settles O8: the answer for each of the three markers and for every other byte. -/
theorem encLutTakesFirstMatch : Obligations.EncLutTakesFirstMatch := by
  unfold Obligations.EncLutTakesFirstMatch
  intro t b
  refine ⟨?_, ?_, ?_, fun hs he hx => encLut_eq_none_iff.mpr ⟨hs, he, hx⟩, fun hse hsx hex => ?_, isMarker_iff_ne_none,
    isMarker_iff⟩
  · rintro rfl; exact encLut_sof t
  · rintro hs rfl; exact encLut_eof hs
  · rintro hs he rfl; exact encLut_esc hs he
  · exact ⟨encLut_sof t, encLut_eof hse.symm, encLut_esc hsx.symm hex.symm⟩

/-- Settles O9: the answer for each of the three indices and for every other byte. -/
theorem decLutTakesFirstMatch : Obligations.DecLutTakesFirstMatch := by
  unfold Obligations.DecLutTakesFirstMatch
  intro t i
  refine ⟨?_, ?_, ?_, decLut_of_ne⟩
  · rintro rfl; exact decLut_idx0 t
  · rintro h0 rfl; exact decLut_idx1 h0
  · rintro h0 h1 rfl; exact decLut_idx2 h0 h1

/-! ## The lookups are inverse -/

/-- The table pairs the marker m with the index i (R95). -/
inductive LutEntry (t : Lut) : Byte → Byte → Prop where
  | sof : LutEntry t t.sof t.idx0
  | eof : LutEntry t t.eof t.idx1
  | esc : LutEntry t t.esc t.idx2

/-- Whatever the table is, what EncLUT finds is an entry. -/
theorem LutEntry.of_encLut {t : Lut} {m i : Byte} (h : encLut t m = some i) : LutEntry t m i := by
  unfold encLut at h
  split_ifs at h with hs he hx
  · cases h; subst hs; exact .sof
  · cases h; subst he; exact .eof
  · cases h; subst hx; exact .esc

/-- With distinct markers EncLUT finds every entry. -/
theorem LutEntry.encLut_eq {t : Lut} (ht : t.Distinct) {m i : Byte} (h : LutEntry t m i) : encLut t m = some i := by
  obtain ⟨hse, hsx, hex, -⟩ := ht
  cases h with
  | sof => exact encLut_sof t
  | eof => exact encLut_eof hse.symm
  | esc => exact encLut_esc hsx.symm hex.symm

/-- With distinct indices DecLUT finds every entry. -/
theorem LutEntry.decLut_eq {t : Lut} (ht : t.Distinct) {m i : Byte} (h : LutEntry t m i) : decLut t i = some m := by
  obtain ⟨-, -, -, h01, h02, h12⟩ := ht
  cases h with
  | sof => exact decLut_idx0 t
  | eof => exact decLut_idx1 h01.symm
  | esc => exact decLut_idx2 h02.symm h12.symm

/-- Settles O10: a marker that EncLUT finds is in an entry, and so is each index; both lookups find every entry. -/
theorem lookupsAreInverse : Obligations.LookupsAreInverse := by
  unfold Obligations.LookupsAreInverse
  intro t ht
  refine ⟨fun m hm => ?_, fun i hi => ?_⟩
  · obtain ⟨i, hi⟩ := Option.isSome_iff_exists.mp hm
    exact ⟨i, hi, (LutEntry.of_encLut hi).decLut_eq ht⟩
  · obtain ⟨m, hm⟩ : ∃ m, LutEntry t m i := by
      obtain rfl | rfl | rfl := hi
      · exact ⟨_, .sof⟩
      · exact ⟨_, .eof⟩
      · exact ⟨_, .esc⟩
    exact ⟨m, hm.decLut_eq ht, hm.encLut_eq ht⟩

/-! ## Feeding a decoder -/

/-- The DEC.FEEDs of the bytes bs, each with no delivery in progress, take the decoder d to d'. -/
inductive Decoder.Feeds : List Byte → Decoder → Decoder → Prop where
  | nil (d : Decoder) : Feeds [] d d
  | cons {b : Byte} {bs : List Byte} {d d1 d' : Decoder} (idle : d.delivering = false) (feed : feedDecoder b d = .ok d1)
      (rest : Feeds bs d1 d') : Feeds (b :: bs) d d'

theorem Decoder.Feeds.single {b : Byte} {d d' : Decoder} (idle : d.delivering = false) (feed : feedDecoder b d = .ok d') :
    Decoder.Feeds [b] d d' :=
  .cons idle feed (.nil d')

theorem Decoder.Feeds.append {bs cs : List Byte} {d d1 d' : Decoder} (h : Decoder.Feeds bs d d1)
    (h' : Decoder.Feeds cs d1 d') : Decoder.Feeds (bs ++ cs) d d' := by
  induction h with
  | nil => exact h'
  | cons idle feed _ ih => exact .cons idle feed (ih h')

/-- On the selected decoder they are dec.feedblock carried out (R88). -/
theorem Decoder.Feeds.execAll_eq {bs : List Byte} {d d' : Decoder} (h : Decoder.Feeds bs d d') : ∀ {s : State},
    s.dec? = some d → execAll (decFeedblock bs) s = .next (s.setDec d') := by
  induction h with
  | nil => exact fun hs => congrArg _ (State.setDec_self hs).symm
  | @cons b bs d d1 d' idle feed _ ih =>
    intro s hs
    have hexec : exec (.decFeed b) s = .next (s.setDec d1) := onDecoder_ok hs idle feed
    rw [← State.setDec_setDec s d1 d', ← ih (State.setDec_dec? hs d1)]
    exact execAll_cons_next hexec

/-! ## A decoder that reads a frame -/

/-- The common state u is u0 after n bytes were acknowledged, of which the payload bytes vs were appended since the last
reset, all with room. -/
structure Inst.Reads (u0 u : Inst) (vs : List Byte) (n : Nat) : Prop where
  config : Inst.SameConfig u0 u
  holds  : u.Holds vs
  acks   : u.obs = u0.obs ++ List.replicate n (.rsp .ack)

theorem Inst.reads_nil {u : Inst} (hcur : u.cursor = 0#24) (herr : u.err = .noError) : u.Reads u [] 0 :=
  ⟨.refl u, Inst.holds_nil hcur herr, (List.append_nil _).symm⟩

theorem Inst.Reads.respond {u0 u : Inst} {vs : List Byte} {n : Nat} (h : u0.Reads u vs n) :
    u0.Reads (u.respond .ack) vs (n + 1) :=
  { config := h.config
    holds := ⟨h.holds.bytes, h.holds.noErr⟩
    acks := by rw [Inst.respond_obs, h.acks, List.append_assoc, ← List.replicate_succ'] }

theorem Inst.Reads.append {u0 u : Inst} {vs : List Byte} {n : Nat} (h : u0.Reads u vs n) (v : Byte)
    (hroom : vs.length < u0.cap.toNat) : ∃ u', u.append v = .ok u' ∧ u0.Reads u' (vs ++ [v]) n := by
  obtain ⟨hlut, hcap, herr⟩ := h.config
  obtain ⟨u', hu, hheld⟩ := h.holds.append v (hcap ▸ hroom)
  have hext := Inst.append_extends hu
  exact ⟨u', hu, ⟨hext.lut.trans hlut, hext.cap.trans hcap, hext.errCombine.trans herr⟩, hheld, hext.obs.trans h.acks⟩

/-- The decoder d in the FSM state f, with the common state u. -/
abbrev Decoder.inState (d : Decoder) (f : Fsm) (u : Inst) : Decoder := { d with toInst := u, fsm := f }

/-- A byte that only moves the FSM is acknowledged (R127, R128). -/
theorem feedDecoder_moveTo {d : Decoder} {f f' : Fsm} {u : Inst} {b : Byte} (hlut : u.lut = d.lut)
    (h : feedRow d.lut f b = .moveTo f') : feedDecoder b (d.inState f u) = .ok (d.inState f' (u.respond .ack)) := by
  rw [feedDecoder_eq_perform, hlut, h]
  rfl

/-- A byte that stands for a payload byte is appended and acknowledged (R129, R130). -/
theorem feedDecoder_payload {d : Decoder} {f : Fsm} {u u' : Inst} {b m : Byte} (hlut : u.lut = d.lut)
    (h : feedRow d.lut f b = .payload m) (hu : u.append m = .ok u') :
    feedDecoder b (d.inState f u) = .ok (d.inState .rp (u'.respond .ack)) := by
  rw [feedDecoder_eq_perform, hlut, h]
  exact FeedRow.perform_payload hu

theorem feedRow_sof (t : Lut) : feedRow t .sfs t.sof = .moveTo .rp := by
  simp [feedRow]

theorem feedRow_eof (t : Lut) : feedRow t .rp t.eof = .frameEnd := by
  simp [feedRow]

theorem feedRow_esc {t : Lut} (h : t.esc ≠ t.eof) : feedRow t .rp t.esc = .moveTo .reb := by
  simp [feedRow, h]

theorem feedRow_plain {t : Lut} {b : Byte} (h : encLut t b = none) : feedRow t .rp b = .payload b := by
  obtain ⟨-, heof, hesc⟩ := encLut_eq_none_iff.mp h
  simp [feedRow, heof, hesc]

theorem feedRow_index {t : Lut} {m i : Byte} (h : decLut t i = some m) : feedRow t .reb i = .payload m := by
  simp [feedRow, h]

section
variable {d : Decoder} {u : Inst} {vs : List Byte} {n : Nat} (ht : d.lut.Distinct) (hidle : d.delivering = false)
include ht hidle

/-- The wire unit of a payload byte, fed in RP with room for the byte, adds the byte (R68, R129, R130). -/
theorem feeds_wireUnit (b : Byte) (h : d.toInst.Reads u vs n) (hroom : vs.length < d.cap.toNat) :
    ∃ u', Decoder.Feeds (wireUnit d.lut b) (d.inState .rp u) (d.inState .rp u') ∧
      d.toInst.Reads u' (vs ++ [b]) (n + (wireUnit d.lut b).length) := by
  obtain ⟨hlut, -⟩ := h.config
  cases hb : encLut d.lut b with
  | none =>
    rw [wireUnit_plain hb]
    obtain ⟨u', hu, h'⟩ := h.append b hroom
    exact ⟨_, .single hidle (feedDecoder_payload hlut (feedRow_plain hb) hu), h'.respond⟩
  | some i =>
    rw [wireUnit_marker hb]
    have hdec : decLut d.lut i = some b := (LutEntry.of_encLut hb).decLut_eq ht
    obtain ⟨-, -, hex, -⟩ := ht
    obtain ⟨u', hu, h'⟩ := h.respond.append b hroom
    exact ⟨_, .cons hidle (feedDecoder_moveTo hlut (feedRow_esc hex.symm))
      (.single hidle (feedDecoder_payload hlut (feedRow_index hdec) hu)), h'.respond⟩

/-- The escaped form of a payload, fed in RP with room for the payload, adds the payload. -/
theorem feeds_escapePayload (P : List Byte) : ∀ {u : Inst} {vs : List Byte} {n : Nat},
    d.toInst.Reads u vs n → (vs ++ P).length ≤ d.cap.toNat →
    ∃ u', Decoder.Feeds (escapePayload d.lut P) (d.inState .rp u) (d.inState .rp u') ∧
      d.toInst.Reads u' (vs ++ P) (n + (escapePayload d.lut P).length) := by
  induction P with
  | nil => exact fun {u vs _} h _ => ⟨u, .nil _, (List.append_nil vs).symm ▸ h⟩
  | cons b P ih =>
    intro u vs n h hroom
    have hlen : vs.length + (P.length + 1) ≤ d.cap.toNat := by simpa using hroom
    obtain ⟨u1, hfeed, h1⟩ := feeds_wireUnit ht hidle b h (by omega)
    rw [List.append_cons] at hroom ⊢
    obtain ⟨u', hfeeds, h'⟩ := ih h1 hroom
    refine ⟨u', hfeed.append hfeeds, ?_⟩
    rwa [escapePayload, List.length_append, ← Nat.add_assoc]

/-- A searching decoder that is fed the frame of a payload it has room for acknowledges every byte and, before the last
acknowledgement, delivers the payload (R126). -/
theorem feeds_wireFrame {P : List Byte} (hsearch : d.fsm = .sfs) (hcur : d.cursor = 0#24) (herr : d.err = .noError)
    (hcb : d.cbEn = true) (hc : d.consumer = .prompt) (hroom : P.length ≤ d.cap.toNat) :
    ∃ (d' : Decoder) (len : Count), Decoder.Feeds (wireFrame d.lut P) d d' ∧ len.toNat = P.length ∧
      d'.obs = d.obs ++ List.replicate ((escapePayload d.lut P).length + 1) (.rsp .ack) ++
        [.dlv P len .noError, .rsp .ack] ∧
      d'.fsm = .sfs ∧ d'.cursor = 0#24 ∧ d'.err = .noError := by
  have hsof : feedDecoder d.lut.sof d = .ok (d.inState .rp (d.toInst.respond .ack)) := by
    have hmove := feedDecoder_moveTo (d := d) rfl (feedRow_sof d.lut)
    rwa [← hsearch] at hmove
  obtain ⟨u, hfeeds, h⟩ := feeds_escapePayload ht hidle P (Inst.reads_nil hcur herr).respond hroom
  obtain ⟨hlut, -⟩ := h.config
  have hread : u.memRead 0 u.cursor.toNat = .ok P := by simp [Inst.memRead, h.holds.bytes]
  have heof : feedDecoder d.lut.eof (d.inState .rp u) =
      .ok (Decoder.endFrame (d.inState .rp (u.deliver P u.cursor u.err))) := by
    rw [feedDecoder_eq_perform, hlut, feedRow_eof]
    exact completeFrame_prompt hcb hc hread
  refine ⟨_, u.cursor, .cons hidle hsof (hfeeds.append (.single hidle heof)), h.holds.cursor_eq, ?_, rfl, rfl, rfl⟩
  simp [Decoder.endFrame, h.acks, h.holds.noErr, Nat.add_comm]

end

/-- Settles O47: the encoder makes the wire frame of the payload, the readout gives it whole, and the decoder that is fed it
delivers the payload. -/
theorem roundTripDeliversThePayload : Obligations.RoundTripDeliversThePayload := by
  unfold Obligations.RoundTripDeliversThePayload
  intro s t e d P hs hd hlut ht hcur herr he hroom hinv hsearch hcb hc hidle hroom'
  have hlen := escapePayload_length e.lut P
  obtain ⟨hmakes, -, -⟩ := encoderMakesTheWireFrame
  obtain ⟨s1, e1, hfeed, hs1, -, hsize, hread⟩ := hmakes s e P hs hcur herr (hlen ▸ hroom)
  have hcap := he.base.capMax
  unfold Config.maxCap at hcap
  have hfits : (BitVec.ofNat 24 (e1.cursor.toNat + 2)).toNat = e1.cursor.toNat + 2 := by
    rw [BitVec.toNat_ofNat]
    omega
  obtain ⟨hcur', herr'⟩ := hinv.searching hsearch
  obtain ⟨d1, len, hfeeds, hlen', hobs, hend⟩ :=
    feeds_wireFrame (P := P) (hlut.symm ▸ ht) hidle hsearch hcur' herr' hcb hc hroom'
  rw [hlut] at hfeeds hobs
  have hframe : (wireFrame e.lut P).length = (escapePayload e.lut P).length + 2 := by simp [wireFrame]
  refine ⟨s1, _, _, e1, d1, _, len, _, _, hfeed, hs1, hread _ hfits.ge, rfl, ?_, ?_, hfeeds.execAll_eq hd,
    State.setDec_dec? hd d1, hlen', ?_, hend⟩
  · rw [hfits, hsize, hlen]
  · rw [hfits, hsize, hframe]
  · rw [hobs, hframe]
    rfl

end Sys2Proof.Machine
end

section
/-! PROOFS. The encoder commands one by one: the words that ENC.FEED, ENC.RESET, ENC.SIZE, ENC.GETRESULT and ENC.STATUS are read
from, what each responds with and what it changes. -/

namespace Sys2Proof.Machine

/-! ## Operands of a word that decodes -/

/-- The byte of ENC.FEED is the low byte of its word (R79). -/
theorem encFeed_byte_of_decode {w : Word} {b : Byte} (h : decode .enc w = some (.encFeed b)) : b = w.setWidth 8 := by
  obtain rfl : b.setWidth 32 = w := (encode_encFeed b).symm.trans (encode_of_decode h)
  rw [BitVec.setWidth_setWidth (by decide), BitVec.setWidth_eq]

/-- The operands of ENC.GETRESULT are bit 27 and bits 23:0 of its word (R77, R79). -/
theorem encGetresult_operands_of_decode {w : Word} {null : Bool} {dcap : Count}
    (h : decode .enc w = some (.encGetresult null dcap)) : null = w.getLsbD 27 ∧ dcap = w.setWidth 24 := by
  obtain ⟨-, -, -, hn, hopnd⟩ := encode_eq_iff.mp (encode_of_decode h)
  exact ⟨hn.symm, hopnd.symm.trans (BitVec.setWidth_eq_extractLsb' (by decide)).symm⟩

/-! ## ENC.FEED with room and on a full buffer -/

/-- ENC.FEED of a marker with two bytes of room writes ESC and the index (R58, R106). -/
theorem feedEncoder_escaped {e : Encoder} {b i : Byte} (hb : encLut e.lut b = some i)
    (hroom : e.cursor.toNat + 1 < e.cap.toNat) :
    feedEncoder b e = .ok (Inst.respond { e with
      buf := Memory.write (Memory.write e.buf e.cursor.toNat e.lut.esc) (e.cursor.toNat + 1) i
      cursor := e.cursor + 2#24 } .ack) := by
  have hesc : e.cursor.toNat < e.cap.toNat := by omega
  have hnext : (e.cursor + 1#24).toNat = e.cursor.toNat + 1 := Inst.cursor_succ hesc
  have htwo : e.cursor + 1#24 + 1#24 = e.cursor + 2#24 := BitVec.add_assoc ..
  have hmarker := feedEncoder_marker hb (Inst.append_room e.lut.esc hesc) (Inst.append_room i (hnext ▸ hroom))
  rwa [hnext, htwo] at hmarker

theorem Inst.raise_raise (u : Inst) (c : ErrCode) : (u.raise c).raise c = u.raise c :=
  congrArg (fun err => { u with err }) (combineErr_idem u.errCombine u.err c)

/-- ENC.FEED on a full buffer writes nothing: the second append of a marker raises the same error again (R52, R108). -/
theorem feedEncoder_full {e : Encoder} (b : Byte) (hfull : e.cursor = e.cap) :
    feedEncoder b e = .ok ((Inst.raise e .bufInsufficient).respond .ack) := by
  cases hb : encLut e.lut b with
  | none => exact feedEncoder_plain hb (Inst.append_full b hfull)
  | some i =>
    rw [feedEncoder_marker hb (Inst.append_full e.lut.esc hfull) (Inst.append_full i hfull), Inst.raise_raise]

/-- Settles O21: a plain byte is one append and a marker two, each with room or refused. -/
theorem encFeedAppendsEscapedByte : Obligations.EncFeedAppendsEscapedByte := by
  unfold Obligations.EncFeedAppendsEscapedByte
  refine ⟨fun w hw => ?_, fun s e b hs _ =>
    ⟨fun hb hroom => ?_, fun i hb hroom => ?_, fun i hb hroom => ?_, fun hfull => ?_⟩⟩
  · obtain ⟨hfeed, -⟩ := decodeFollowsMatchAndMask w
    obtain ⟨b, hb⟩ := hfeed.mpr hw
    rwa [← encFeed_byte_of_decode hb]
  · exact onEncoder_ok hs (feedEncoder_plain hb (Inst.append_room b hroom))
  · exact onEncoder_ok hs (feedEncoder_escaped hb hroom)
  · exact onEncoder_ok hs (feedEncoder_loneEsc (by simp [isMarker, hb]) hroom)
  · exact onEncoder_ok hs (feedEncoder_full b (BitVec.eq_of_toNat_eq hfull))

/-- Settles O23: by induction on the bytes, each refused by an encoder that stays full and good. -/
theorem fullEncoderRefusesEveryFeed : Obligations.FullEncoderRefusesEveryFeed := by
  unfold Obligations.FullEncoderRefusesEveryFeed
  intro s e bs
  induction bs generalizing s e with
  | nil =>
    intro hs _ _
    simpa [encFeedblock, execAll] using (State.setEnc_self hs).symm
  | cons b bs ih =>
    intro hs he hfull
    have hfeed := feedEncoder_full b hfull
    have hexec : exec (.encFeed b) s = .next (s.setEnc ((Inst.raise e .bufInsufficient).respond .ack)) :=
      onEncoder_ok hs hfeed
    have hrest := ih _ _ (State.setEnc_enc? hs _) (feedEncoder_keeps_inv he hfeed) hfull
    rw [State.setEnc_setEnc] at hrest
    refine (execAll_cons_next hexec).trans (hrest.trans ?_)
    simp [combineErr_bufInsufficient _ he.noDecodeError, List.replicate_succ, Inst.raise, Inst.respond]

/-! ## ENC.GETRESULT -/

/-- A good instance holds a byte at each address below CURSOR (R44). -/
theorem Inst.Inv.exists_written {u : Inst} (hu : u.Inv) : ∃ vs, Memory.readN u.buf 0 u.cursor.toNat = some vs :=
  Memory.readN_isSome fun a _ ha => hu.bufWritten a (by rwa [Nat.zero_add] at ha)

theorem readEncoder_null {e : Encoder} {null : Bool} {dcap : Count} (h : null = true ∨ dcap = 0#24) :
    readEncoder null dcap e = .ok (e.respond (.data 0#24 [])) := if_pos h

/-- ENC.GETRESULT with a destination gives as many bytes of the frame image as fit (R112, R113). -/
theorem readEncoder_data {e : Encoder} {vs : List Byte} {dcap : Count}
    (hvs : Memory.readN e.buf 0 e.cursor.toNat = some vs) (hd : dcap ≠ 0#24) :
    readEncoder false dcap e =
      .ok (e.respond (.data (BitVec.ofNat 24 (min (e.cursor.toNat + 2) dcap.toNat))
        (([e.lut.sof] ++ vs ++ [e.lut.eof]).take (min (e.cursor.toNat + 2) dcap.toNat)))) := by
  have himage : frameImage e = .ok ([e.lut.sof] ++ vs ++ [e.lut.eof]) := by simp [frameImage, Inst.memRead, hvs]
  simp only [readEncoder, hd, himage, frameSize, Bool.false_eq_true, or_self, if_false]

/-- Settles O26: the bytes below CURSOR are those of the buffer, and a count of at most dcap fits in 24 bits. -/
theorem encGetresultCopiesFrameImage : Obligations.EncGetresultCopiesFrameImage := by
  unfold Obligations.EncGetresultCopiesFrameImage
  refine ⟨fun w hw => ?_, fun s e null dcap hs he => ?_⟩
  · obtain ⟨-, -, -, hget, -⟩ := decodeFollowsMatchAndMask w
    obtain ⟨null, dcap, h⟩ := hget.mpr hw
    obtain ⟨hnull, hdcap⟩ := encGetresult_operands_of_decode h
    rwa [← hnull, ← hdcap]
  · obtain ⟨vs, hvs⟩ := he.base.exists_written
    refine ⟨vs, Memory.readN_length hvs, fun a ha => ?_, fun h => ?_, fun hnull hd => ?_⟩
    · rw [Memory.readN_getElem? hvs ha, Nat.zero_add]
    · exact onEncoder_ok hs (readEncoder_null (h.imp_right BitVec.eq_of_toNat_eq))
    · have hk : (BitVec.ofNat 24 (min (e.cursor.toNat + 2) dcap.toNat)).toNat = min (e.cursor.toNat + 2) dcap.toNat :=
        (BitVec.toNat_ofNat ..).trans (Nat.mod_eq_of_lt ((Nat.min_le_right ..).trans_lt dcap.isLt))
      refine ⟨_, hk, ?_⟩
      rw [hk, hnull]
      exact onEncoder_ok hs (readEncoder_data hvs fun h => hd (congrArg BitVec.toNat h))

/-! ## ENC.RESET, ENC.SIZE and ENC.STATUS -/

/-- Settles O24: the word has no free bits, and a reset encoder is a cleared one that has responded. -/
theorem encResetClearsCursorAndErr : Obligations.EncResetClearsCursorAndErr := by
  unfold Obligations.EncResetClearsCursorAndErr
  exact ⟨fun w => (decode_iff_match (i := .encReset) rfl).mpr, fun s e hs => onEncoder_ok (f := resetEncoder) hs rfl⟩

/-- CURSOR + 2 does not wrap in 32 bits (R36, R110). -/
theorem frameSize_toNat (e : Encoder) : (BitVec.ofNat 32 (frameSize e)).toNat = e.cursor.toNat + 2 := by
  have hcursor := e.cursor.isLt
  rw [BitVec.toNat_ofNat, frameSize]
  omega

/-- Settles O25: the response is the frame's size as a 32-bit word. -/
theorem encSizeIsCursorPlusTwo : Obligations.EncSizeIsCursorPlusTwo := by
  unfold Obligations.EncSizeIsCursorPlusTwo
  exact ⟨fun w => (decode_iff_match (i := .encSize) rfl).mpr,
    fun s e hs => ⟨_, frameSize_toNat e, onEncoder_ok (f := sizeEncoder) hs rfl⟩⟩

section statusWord
variable (cursor : Count) (cbEn : Bool) (fsm : BitVec 2) (err : ErrCode)

/-- Above ERR and FSM the status word is CURSOR, three zeros and CB_EN (R37). -/
theorem statusWord_above_fsm (start len : Nat) :
    (statusWord cursor cbEn fsm err).extractLsb' (start + 4) len =
      (cursor ++ 0b000#3 ++ BitVec.ofBool cbEn).extractLsb' start len :=
  (BitVec.extractLsb'_append_eq_of_le (by omega)).trans (BitVec.extractLsb'_append_eq_of_le (by omega))

theorem statusWord_cursor : (statusWord cursor cbEn fsm err).extractLsb' 8 24 = cursor :=
  (statusWord_above_fsm cursor cbEn fsm err 4 24).trans <|
    (BitVec.extractLsb'_append_eq_of_le (by decide)).trans BitVec.extractLsb'_append_eq_left

theorem statusWord_zeros : (statusWord cursor cbEn fsm err).extractLsb' 5 3 = 0b000#3 :=
  (statusWord_above_fsm cursor cbEn fsm err 1 3).trans <|
    (BitVec.extractLsb'_append_eq_of_le (by decide)).trans BitVec.extractLsb'_append_eq_right

theorem statusWord_cbEn : (statusWord cursor cbEn fsm err).extractLsb' 4 1 = BitVec.ofBool cbEn :=
  (statusWord_above_fsm cursor cbEn fsm err 0 1).trans BitVec.extractLsb'_append_eq_right

theorem statusWord_zeros_cbEn :
    (statusWord cursor cbEn fsm err).extractLsb' 4 4 = 0b000#3 ++ BitVec.ofBool cbEn := by
  rw [← statusWord_zeros cursor cbEn fsm err, ← statusWord_cbEn cursor cbEn fsm err]
  exact (BitVec.extractLsb'_append_extractLsb'_eq_extractLsb' (start₂ := 5) (start₁ := 4) (len₂ := 3) (len₁ := 1)
    rfl).symm

theorem statusWord_fsm : (statusWord cursor cbEn fsm err).extractLsb' 2 2 = fsm :=
  (BitVec.extractLsb'_append_eq_of_le (by decide)).trans BitVec.extractLsb'_append_eq_right

theorem statusWord_err : (statusWord cursor cbEn fsm err).extractLsb' 0 2 = err.code :=
  BitVec.extractLsb'_append_eq_right

end statusWord

/-- Settles O27: the response is the status word with CB_EN and FSM equal to 0, whose fields are read back. -/
theorem encStatusReadsStatusWord : Obligations.EncStatusReadsStatusWord := by
  unfold Obligations.EncStatusReadsStatusWord
  exact ⟨fun w => (decode_iff_match (i := .encStatus) rfl).mpr,
    fun s e hs => ⟨_, onEncoder_ok (f := statusEncoder) hs rfl, statusWord_cursor ..,
      statusWord_zeros_cbEn e.cursor false 0b00#2 e.err, statusWord_fsm .., statusWord_err ..⟩⟩

end Sys2Proof.Machine
end

section
/-! PROOFS. The decoder commands one by one: what DEC.FEED does in each row of the transition table, what DEC.RESET,
DEC.SETCB and DEC.STATUS respond with and change, and what a delivery in progress refuses and how it ends. -/

namespace Sys2Proof.Machine

/-! ## DEC.FEED, row by row -/

theorem feedRow_garbage {t : Lut} {b : Byte} (h : b ≠ t.sof) : feedRow t .sfs b = .moveTo .sfs := by
  simp [feedRow, h]

theorem feedRow_append {t : Lut} {b : Byte} (heof : b ≠ t.eof) (hesc : b ≠ t.esc) : feedRow t .rp b = .payload b := by
  simp [feedRow, heof, hesc]

theorem feedDecoder_of_row {d : Decoder} {f : Fsm} {b : Byte} {row : FeedRow} (hf : d.fsm = f)
    (h : feedRow d.lut f b = row) : feedDecoder b d = row.perform d := by
  rw [feedDecoder_eq_perform, hf, h]

/-- Outside a frame a byte other than SOF is acknowledged, and that is all (R127). -/
theorem feedDecoder_garbage {d : Decoder} {b : Byte} (hf : d.fsm = .sfs) (h : b ≠ d.lut.sof) :
    feedDecoder b d = .ok (d.respond .ack) := by
  rw [feedDecoder_of_row hf (feedRow_garbage h), ← hf]
  rfl

/-- A byte that stands for the payload byte m, with room for it (R51, R129, R130). -/
theorem feedDecoder_room {d : Decoder} {f : Fsm} {b m : Byte} (hf : d.fsm = f) (h : feedRow d.lut f b = .payload m)
    (hroom : d.cursor.toNat < d.cap.toNat) :
    feedDecoder b d = .ok { d with
      buf := Memory.write d.buf d.cursor.toNat m, cursor := d.cursor + 1#24, fsm := .rp
      cmd := none, obs := d.obs ++ [.rsp .ack] } :=
  (feedDecoder_of_row hf h).trans (FeedRow.perform_payload (Inst.append_room m hroom))

/-- A byte that stands for a payload byte, on a full buffer (R52, R132, R151). -/
theorem feedDecoder_full {d : Decoder} {f : Fsm} {b m : Byte} (hf : d.fsm = f) (h : feedRow d.lut f b = .payload m)
    (hfull : d.cursor = d.cap) :
    feedDecoder b d = .ok { d with
      err := combineErr d.errCombine d.err .bufInsufficient, fsm := .rp, cmd := none, obs := d.obs ++ [.rsp .ack] } :=
  (feedDecoder_of_row hf h).trans (FeedRow.perform_payload (Inst.append_full m hfull))

theorem Inst.memRead_all {u : Inst} {vs : List Byte} (h : Memory.readN u.buf 0 u.cursor.toNat = some vs) :
    u.memRead 0 u.cursor.toNat = .ok vs := by
  simp [Inst.memRead, h]

/-- EOF in RP with a prompt consumer: the delivery, the implicit reset, the ACK (R126, R139). -/
theorem feedDecoder_eof_prompt {d : Decoder} {vs : List Byte} (hf : d.fsm = .rp) (hcb : d.cbEn = true)
    (hc : d.consumer = .prompt) (hvs : Memory.readN d.buf 0 d.cursor.toNat = some vs) :
    feedDecoder d.lut.eof d = .ok { d with
      cursor := 0#24, err := .noError, fsm := .sfs, cmd := none
      obs := d.obs ++ [.dlv vs d.cursor d.err, .rsp .ack] } := by
  rw [feedDecoder_of_row hf (feedRow_eof d.lut), FeedRow.perform, completeFrame_prompt hcb hc (Inst.memRead_all hvs)]
  simp [Decoder.endFrame, Decoder.clear, Decoder.respond, Inst.clear, Inst.respond, Inst.deliver]

/-- EOF in RP with no consumer registered: the implicit reset and the ACK (R138). -/
theorem feedDecoder_eof_discarded {d : Decoder} (hf : d.fsm = .rp) (hcb : d.cbEn = false) :
    feedDecoder d.lut.eof d = .ok { d with
      cursor := 0#24, err := .noError, fsm := .sfs, cmd := none, obs := d.obs ++ [.rsp .ack] } :=
  (feedDecoder_of_row hf (feedRow_eof d.lut)).trans (completeFrame_discarded hcb)

/-- EOF in RP with a holding consumer: the delivery, and no ACK (R183). -/
theorem feedDecoder_eof_holding {d : Decoder} {vs : List Byte} (hf : d.fsm = .rp) (hcb : d.cbEn = true)
    (hc : d.consumer = .holding) (hvs : Memory.readN d.buf 0 d.cursor.toNat = some vs) :
    feedDecoder d.lut.eof d = .ok { d with delivering := true, obs := d.obs ++ [.dlv vs d.cursor d.err] } :=
  (feedDecoder_of_row hf (feedRow_eof d.lut)).trans (completeFrame_holding hcb hc (Inst.memRead_all hvs))

/-- The bytes below CURSOR, as the statements on deliveries describe them (R44). -/
theorem Inst.Inv.exists_bytes {u : Inst} (hu : u.Inv) :
    ∃ vs, Memory.readN u.buf 0 u.cursor.toNat = some vs ∧ vs.length = u.cursor.toNat ∧
      ∀ a, a < u.cursor.toNat → vs[a]? = Memory.read u.buf a := by
  obtain ⟨vs, hvs⟩ := hu.exists_written
  exact ⟨vs, hvs, Memory.readN_length hvs, fun a ha => by rw [Memory.readN_getElem? hvs ha, Nat.zero_add]⟩

/-- Settles O33: SOF moves to RP, any other byte moves nowhere, and a good decoder in SFS is cleared. -/
theorem searchingDecoderTakesOnlySof : Obligations.SearchingDecoderTakesOnlySof := by
  unfold Obligations.SearchingDecoderTakesOnlySof
  intro s d b hs hidle hf
  refine ⟨?_, fun hb => onDecoder_ok hs hidle (feedDecoder_garbage hf hb), fun hd => hd.searching hf⟩
  rintro rfl
  exact onDecoder_ok hs hidle (feedDecoder_of_row hf (feedRow_sof d.lut))

/-- Settles O34: a good decoder can read the bytes it delivers. -/
theorem eofCompletesTheFrame : Obligations.EofCompletesTheFrame := by
  unfold Obligations.EofCompletesTheFrame
  rintro s d _ hs hd hidle hf rfl
  obtain ⟨vs, hvs, hlen, hbytes⟩ := hd.base.exists_bytes
  exact ⟨fun hcb hc => ⟨vs, hlen, hbytes, onDecoder_ok hs hidle (feedDecoder_eof_prompt hf hcb hc hvs)⟩,
    fun hcb => onDecoder_ok hs hidle (feedDecoder_eof_discarded hf hcb)⟩

/-- Settles O36: ESC moves to REB, and any other byte but EOF stands for itself. -/
theorem payloadByteIsAppended : Obligations.PayloadByteIsAppended := by
  unfold Obligations.PayloadByteIsAppended
  intro s d b hs hidle hf heof _
  refine ⟨?_, fun hesc hroom => ?_, fun hesc hfull => ?_⟩
  · rintro rfl
    exact onDecoder_ok hs hidle (feedDecoder_of_row hf (feedRow_esc heof))
  · have hfeed := feedDecoder_room hf (feedRow_append heof hesc) hroom
    rw [← hf] at hfeed
    exact onDecoder_ok hs hidle hfeed
  · have hfeed := feedDecoder_full hf (feedRow_append heof hesc) (BitVec.eq_of_toNat_eq hfull)
    rw [← hf] at hfeed
    exact onDecoder_ok hs hidle hfeed

/-- Settles O37: an escape index stands for its marker. -/
theorem escapeIndexAppendsItsMarker : Obligations.EscapeIndexAppendsItsMarker := by
  unfold Obligations.EscapeIndexAppendsItsMarker
  intro s d b m hs hidle hf hm _
  exact ⟨fun hroom => onDecoder_ok hs hidle (feedDecoder_room hf (feedRow_index hm) hroom),
    fun hfull => onDecoder_ok hs hidle (feedDecoder_full hf (feedRow_index hm) (BitVec.eq_of_toNat_eq hfull))⟩

/-! ## The transition table -/

/-- The state that a row goes to (R124). -/
def FeedRow.target : FeedRow → Fsm
  | .frameEnd => .sfs
  | .moveTo f => f
  | .payload _ => .rp
  | .badIndex => .rp

/-- With a prompt consumer a row goes to its state, whatever CURSOR and ERR are (R132). -/
theorem FeedRow.perform_fsm {row : FeedRow} {d d' : Decoder} (hc : d.consumer = .prompt) (h : row.perform d = .ok d') :
    d'.fsm = row.target := by
  cases row with
  | frameEnd =>
    obtain ⟨vs, -, -, ⟨-, rfl⟩ | ⟨hhold, -⟩⟩ | ⟨-, rfl⟩ := completeFrame_cases h
    · rfl
    · rw [hc] at hhold; cases hhold
    · rfl
  | moveTo f => cases h; rfl
  | payload m =>
    obtain ⟨u, -, rfl⟩ := FeedRow.perform_payload_next h
    rfl
  | badIndex => cases h; rfl

/-- The column 'next state' of the transition table (R124, R125). -/
theorem feedRow_target (t : Lut) (f : Fsm) (b : Byte) :
    (feedRow t f b).target =
      (match f with
        | .sfs => if b = t.sof then .rp else .sfs
        | .rp => if b = t.eof then .sfs else if b = t.esc then .reb else .rp
        | .reb => .rp) := by
  cases f with
  | sfs => rfl
  | rp => simp only [feedRow]; split_ifs <;> rfl
  | reb => simp only [feedRow]; split <;> rfl

/-- Settles O39: the FEED completes, and the row that applies goes to the state the table gives. -/
theorem fsmFollowsTransitionTable : Obligations.FsmFollowsTransitionTable := by
  unfold Obligations.FsmFollowsTransitionTable
  intro s d b hs hd hidle hc
  obtain ⟨d', hd'⟩ := (DecMeaning.feed b).completes hd.base.filled
  refine ⟨_, d', onDecoder_ok hs hidle hd', State.setDec_dec? hs d', ?_⟩
  rw [feedDecoder_eq_perform] at hd'
  exact (FeedRow.perform_fsm hc hd').trans (feedRow_target d.lut d.fsm b)

/-! ## Bytes outside a frame -/

theorem feeds_garbage {bs : List Byte} : ∀ {d : Decoder}, d.delivering = false → d.fsm = .sfs →
    (∀ b ∈ bs, b ≠ d.lut.sof) →
    Decoder.Feeds bs d { d with
      cmd := if bs = [] then d.cmd else none, obs := d.obs ++ List.replicate bs.length (.rsp .ack) } := by
  induction bs with
  | nil =>
    intro d _ _ _
    simpa using Decoder.Feeds.nil d
  | cons b bs ih =>
    intro d hidle hf hbs
    obtain ⟨hb, hbs⟩ := List.forall_mem_cons.mp hbs
    have hrest := ih (d := d.respond .ack) hidle hf hbs
    refine .cons hidle (feedDecoder_garbage hf hb) ?_
    simpa [List.replicate_succ, Decoder.respond, Inst.respond] using hrest

/-- Settles O44: every byte leaves the decoder searching. -/
theorem garbageBeforeSofIsIgnored : Obligations.GarbageBeforeSofIsIgnored := by
  unfold Obligations.GarbageBeforeSofIsIgnored
  intro s d bs hs hidle hf hbs
  exact (feeds_garbage hidle hf hbs).execAll_eq hs

/-! ## A delivery in progress -/

theorem issueCmd_delivering {s : State} {p : Port} {c : Option Word} (w : Word) (ho : s.outstanding p = some c)
    (hd : s.deliveringAt p = true) : issueCmd p w s = .refused .commandDuringDelivery := by
  simp [issueCmd, ho, hd]

theorem runPort_delivering {s : State} {p : Port} {c : Option Word} (ho : s.outstanding p = some c)
    (hd : s.deliveringAt p = true) : runPort p s = .next s := by
  cases c with
  | none => exact runPort_idle ho
  | some w => simp [runPort, ho, hd]

theorem finishConsumer_delivering {s : State} {k : Nat} {d : Decoder} (hd : s.decs[k]? = some d)
    (hn : d.delivering = true) : finishConsumer k s = .next { s with decs := s.decs.set k (finishDelivery d) } := by
  simp [finishConsumer, hd, hn]

theorem onDecoder_delivering {s : State} {d : Decoder} (f : Decoder → Except Fault Decoder) (hs : s.dec? = some d)
    (hn : d.delivering = true) : onDecoder s f = .refused .commandDuringDelivery := by
  simp [onDecoder, hs, hn]

theorem step_issue_delivering {s : State} {k : Nat} {w : Word} {ms : List Move} {d : Decoder}
    (hsched : s.sched = .issue (.dec k) w :: ms) (hd : s.decs[k]? = some d) (hn : d.delivering = true) :
    step s = .refused .commandDuringDelivery := by
  rw [step_cons hsched]
  exact issueCmd_delivering w (State.outstanding_dec hd) ((State.deliveringAt_dec hd).trans hn)

/-- Settles O14: both the issue of a word and every decoder command look for a delivery first. -/
theorem commandDuringDeliveryIsRefused : Obligations.CommandDuringDeliveryIsRefused := by
  unfold Obligations.CommandDuringDeliveryIsRefused
  refine ⟨fun _ _ _ _ _ => step_issue_delivering, fun s d i hs hn hi => ?_⟩
  obtain ⟨f, hf⟩ := exists_decMeaning hi
  exact (hf.exec_eq s).trans (onDecoder_delivering f hs hn)

/-- Settles O35: EOF leaves the delivery in progress, and of the moves at the decoder's port only the consumer's ends it. -/
theorem holdingConsumerDelaysTheAck : Obligations.HoldingConsumerDelaysTheAck := by
  unfold Obligations.HoldingConsumerDelaysTheAck
  refine ⟨fun s d hs hd hidle hf hcb hc => ?_, fun s k ms d hd hn =>
    ⟨fun hsched => ?_, fun w hsched => step_issue_delivering hsched hd hn, fun hsched => ?_⟩⟩
  · obtain ⟨vs, hvs, hlen, hbytes⟩ := hd.base.exists_bytes
    exact ⟨vs, hlen, hbytes, onDecoder_ok hs hidle (feedDecoder_eof_holding hf hcb hc hvs)⟩
  · rw [step_cons hsched]
    exact runPort_delivering (State.outstanding_dec hd) ((State.deliveringAt_dec hd).trans hn)
  · rw [step_cons hsched]
    exact finishConsumer_delivering hd hn

/-! ## DEC.RESET, DEC.SETCB and DEC.STATUS -/

/-- Settles O40: the word has no free bits, and a reset decoder is a cleared one that has responded. -/
theorem decResetForcesSearching : Obligations.DecResetForcesSearching := by
  unfold Obligations.DecResetForcesSearching
  exact ⟨fun w => (decode_iff_match (i := .decReset) rfl).mpr,
    fun s d hs hidle => onDecoder_ok (f := resetDecoder) hs hidle rfl⟩

/-- The operand of DEC.SETCB is bit 27 of its word (R77). -/
theorem decSetcb_off_of_decode {w : Word} {off : Bool} (h : decode .dec w = some (.decSetcb off)) :
    off = w.getLsbD 27 := by
  obtain ⟨-, -, -, hn, -⟩ := encode_eq_iff.mp (encode_of_decode h)
  exact hn.symm

/-- Settles O41: bit 27 is field N, and EOF delivers by the CB_EN that DEC.SETCB has left. -/
theorem decSetcbWritesCbEn : Obligations.DecSetcbWritesCbEn := by
  unfold Obligations.DecSetcbWritesCbEn
  refine ⟨fun w hw => ?_, fun s d hs hidle => ?_⟩
  · obtain ⟨-, -, -, -, -, -, -, hsetcb, -⟩ := decodeFollowsMatchAndMask w
    obtain ⟨off, hoff⟩ := hsetcb.mpr hw
    rwa [← decSetcb_off_of_decode hoff]
  · have hexec (off : Bool) :
        exec (.decSetcb off) s = .next (s.setDec (Decoder.respond { d with cbEn := !off } .ack)) :=
      onDecoder_ok (f := setcbDecoder off) hs hidle rfl
    refine ⟨hexec false, hexec true, fun hd hf hc off => ?_⟩
    have hset := State.setDec_dec? hs (Decoder.respond { d with cbEn := !off } .ack)
    cases off with
    | false =>
      obtain ⟨vs, hvs⟩ := hd.base.exists_written
      have hfeed := onDecoder_ok hset hidle (feedDecoder_eof_prompt hf rfl hc hvs)
      exact ⟨_, _, _, hexec false, hfeed, State.setDec_dec? hset _, fun _ => ⟨vs, by simp⟩, nofun⟩
    | true =>
      have hfeed := onDecoder_ok hset hidle (feedDecoder_eof_discarded hf rfl)
      exact ⟨_, _, _, hexec true, hfeed, State.setDec_dec? hset _, nofun, fun _ => by simp⟩

theorem statusWord_bit_cbEn (cursor : Count) (cbEn : Bool) (fsm : BitVec 2) (err : ErrCode) :
    (statusWord cursor cbEn fsm err).getLsbD 4 = cbEn := by
  simpa using congrArg (·.getLsbD 0) (statusWord_cbEn cursor cbEn fsm err)

/-- Settles O42: the response is the status word, whose fields are read back. -/
theorem decStatusReadsStatusWord : Obligations.DecStatusReadsStatusWord := by
  unfold Obligations.DecStatusReadsStatusWord
  refine ⟨fun w => (decode_iff_match (i := .decStatus) rfl).mpr, fun s d hs hidle =>
    ⟨_, onDecoder_ok (f := statusDecoder) hs hidle rfl, statusWord_cursor .., statusWord_zeros .., statusWord_bit_cbEn ..,
      statusWord_fsm .., statusWord_err .., fun hd hf => ?_⟩⟩
  obtain ⟨hcur, herr⟩ := hd.searching hf
  exact ⟨(statusWord_cursor ..).trans hcur, (statusWord_err ..).trans (congrArg ErrCode.code herr)⟩

end Sys2Proof.Machine
end

section
/-! PROOFS. A frame that is too long for the decoder's buffer: its first bytes fill the buffer, the others are refused, and
its EOF still delivers. -/

namespace Sys2Proof.Machine

/-! ## Payload bytes on a full buffer -/

theorem escapePayload_append (t : Lut) (P Q : List Byte) :
    escapePayload t (P ++ Q) = escapePayload t P ++ escapePayload t Q := by
  induction P with
  | nil => rfl
  | cons b P ih => simp [escapePayload, ih]

/-- The common state after n bytes on a full buffer: BUF_INSUFFICIENT is raised and every byte acknowledged (R132). -/
def Inst.overflowed (u : Inst) (n : Nat) : Inst :=
  { u with
    err := combineErr u.errCombine u.err .bufInsufficient, cmd := none
    obs := u.obs ++ List.replicate n (.rsp .ack) }

/-- More bytes on the full buffer raise the same error again. -/
theorem Inst.overflowed_overflowed (u : Inst) (n m : Nat) : (u.overflowed n).overflowed m = u.overflowed (n + m) := by
  simp [Inst.overflowed, combineErr_idem]

section
variable {d : Decoder} {u : Inst} (ht : d.lut.Distinct) (hidle : d.delivering = false)
include ht hidle

/-- The wire unit of a payload byte, fed in RP on a full buffer, adds nothing (R52, R132). -/
theorem feeds_wireUnit_full (b : Byte) (hlut : u.lut = d.lut) (hfull : u.cursor = u.cap) :
    Decoder.Feeds (wireUnit d.lut b) (d.inState .rp u)
      (d.inState .rp (u.overflowed (wireUnit d.lut b).length)) := by
  cases hb : encLut d.lut b with
  | none =>
    rw [wireUnit_plain hb]
    exact .single hidle (feedDecoder_payload hlut (feedRow_plain hb) (Inst.append_full b hfull))
  | some i =>
    have hdec : decLut d.lut i = some b := (LutEntry.of_encLut hb).decLut_eq ht
    obtain ⟨-, -, hex, -⟩ := ht
    have hindex : feedDecoder i (d.inState .reb (u.respond .ack)) = .ok (d.inState .rp (u.overflowed 2)) := by
      rw [feedDecoder_payload (u := u.respond .ack) hlut (feedRow_index hdec) (Inst.append_full b hfull)]
      simp [Inst.overflowed, Inst.raise, Inst.respond]
    rw [wireUnit_marker hb]
    exact .cons hidle (feedDecoder_moveTo hlut (feedRow_esc hex.symm)) (.single hidle hindex)

/-- The escaped form of a payload of at least one byte, fed in RP on a full buffer, adds nothing. -/
theorem feeds_escapePayload_full (P : List Byte) : ∀ {u : Inst} (b : Byte), u.lut = d.lut → u.cursor = u.cap →
    Decoder.Feeds (escapePayload d.lut (b :: P)) (d.inState .rp u)
      (d.inState .rp (u.overflowed (escapePayload d.lut (b :: P)).length)) := by
  induction P with
  | nil =>
    intro u b hlut hfull
    simpa [escapePayload] using feeds_wireUnit_full ht hidle b hlut hfull
  | cons c P ih =>
    intro u b hlut hfull
    have hfeed := feeds_wireUnit_full ht hidle b hlut hfull
    have hfeeds := ih (u := u.overflowed (wireUnit d.lut b).length) c hlut hfull
    rw [Inst.overflowed_overflowed, ← List.length_append] at hfeeds
    exact hfeed.append hfeeds

/-! ## The whole frame -/

/-- The escaped form of a payload that is too long for the buffer: its first CAP bytes fill the buffer, and the rest
overflows. -/
theorem feeds_escapePayload_oversized {P : List Byte} {n : Nat} (h : d.toInst.Reads u [] n)
    (hlong : d.cap.toNat < P.length) :
    ∃ u', Decoder.Feeds (escapePayload d.lut P) (d.inState .rp u) (d.inState .rp u') ∧ u'.lut = d.lut ∧
      Memory.readN u'.buf 0 u'.cursor.toNat = some (P.take d.cap.toNat) ∧ u'.cursor = d.cap ∧
      u'.err = .bufInsufficient ∧
      u'.obs = d.obs ++ List.replicate (n + (escapePayload d.lut P).length) (.rsp .ack) := by
  obtain ⟨b, Q, hrest⟩ := List.exists_cons_of_ne_nil (List.drop_eq_nil_iff.not.mpr hlong.not_ge)
  have hsplit : escapePayload d.lut P = escapePayload d.lut (P.take d.cap.toNat) ++ escapePayload d.lut (b :: Q) := by
    rw [← hrest, ← escapePayload_append, List.take_append_drop]
  have htake : (P.take d.cap.toNat).length = d.cap.toNat := List.length_take_of_le hlong.le
  obtain ⟨u1, hfeeds, h1⟩ := feeds_escapePayload ht hidle (P.take d.cap.toNat) h htake.le
  obtain ⟨hlut, hcap, -⟩ := h1.config
  have hcursor : u1.cursor = d.cap := BitVec.eq_of_toNat_eq (h1.holds.cursor_eq.trans htake)
  have hover := feeds_escapePayload_full ht hidle Q b hlut (hcursor.trans hcap.symm)
  rw [hsplit]
  refine ⟨_, hfeeds.append hover, hlut, h1.holds.bytes, hcursor, ?_, ?_⟩
  · exact if_pos (.inr h1.holds.noErr)
  · simp only [Inst.overflowed, h1.acks, List.append_assoc, List.replicate_append_replicate, List.length_append,
      Nat.add_assoc]

end

/-- Settles O48: after SOF the payload overflows the buffer, and EOF delivers what the buffer holds. -/
theorem oversizedFrameDeliversFirstCapBytes : Obligations.OversizedFrameDeliversFirstCapBytes := by
  unfold Obligations.OversizedFrameDeliversFirstCapBytes
  intro s d P hs hd ht hsearch hcb hc hidle hlong
  obtain ⟨hcur, herr⟩ := hd.searching hsearch
  have hsof : feedDecoder d.lut.sof d = .ok (d.inState .rp (d.toInst.respond .ack)) :=
    feedDecoder_of_row hsearch (feedRow_sof d.lut)
  obtain ⟨u, hfeeds, hlut, hbytes, hcursor, herror, hobs⟩ :=
    feeds_escapePayload_oversized ht hidle (Inst.reads_nil hcur herr).respond hlong
  have heof := feedDecoder_eof_prompt (d := d.inState .rp u) rfl hcb hc hbytes
  rw [hlut] at heof
  have hframe := Decoder.Feeds.cons hidle hsof (hfeeds.append (.single hidle heof))
  refine ⟨_, _, hframe.execAll_eq hs, State.setDec_dec? hs _, ?_, rfl, rfl, rfl⟩
  have hacks : (wireFrame d.lut P).length - 1 = 0 + 1 + (escapePayload d.lut P).length := by
    simp [wireFrame, Nat.add_comm]
  rw [hacks, ← hobs, ← hcursor, ← herror]

end Sys2Proof.Machine
end

section
/-! PROOFS. Errors and responses: the row of a byte in REB that is no escape index, what a second error leaves in ERR, and
that every FEED ends with its ACK. -/

namespace Sys2Proof.Machine

/-! ## A byte in REB that is no escape index -/

theorem feedRow_badIndex {t : Lut} {b : Byte} (h : decLut t b = none) : feedRow t .reb b = .badIndex := by
  simp [feedRow, h]

/-- A byte in REB that is no escape index raises DECODE_ERROR, and the frame goes on (R131, R151, R153). -/
theorem feedDecoder_badIndex {d : Decoder} {b : Byte} (hf : d.fsm = .reb) (h : decLut d.lut b = none) :
    feedDecoder b d = .ok { d with
      err := combineErr d.errCombine d.err .decodeError, fsm := .rp, cmd := none, obs := d.obs ++ [.rsp .ack] } :=
  feedDecoder_of_row hf (feedRow_badIndex h)

/-- Settles O38: the byte has no entry in DecLUT, so it is the row of a bad index. -/
theorem badEscapeIndexRaisesDecodeError : Obligations.BadEscapeIndexRaisesDecodeError := by
  unfold Obligations.BadEscapeIndexRaisesDecodeError
  intro s d b hs hidle hf h0 h1 h2
  exact onDecoder_ok hs hidle (feedDecoder_badIndex hf (decLut_of_ne h0 h1 h2))

/-! ## A second error -/

/-- A raise over an error already held keeps the later code under LAST_WINS and the earlier under FIRST_WINS (R151). -/
theorem combineErr_second (m : ErrCombine) {old : ErrCode} (h : old ≠ .noError) (new : ErrCode) :
    (m = .lastWins → combineErr m old new = new) ∧ (m = .firstWins → combineErr m old new = old) := by
  constructor
  · exact fun hm => if_pos (.inl hm)
  · rintro rfl
    exact if_neg (by simp [h])

/-- Settles O50: the two rows that append meet a full buffer, and the third is that of a bad index. -/
theorem errCombineDecidesSecondError : Obligations.ErrCombineDecidesSecondError := by
  unfold Obligations.ErrCombineDecidesSecondError
  constructor
  · intro s d b hs hidle hfull herr hbyte
    have hrow : ∃ m, feedRow d.lut d.fsm b = .payload m := by
      obtain ⟨hf, heof, hesc⟩ | ⟨hf, m, hm⟩ := hbyte
      · exact ⟨b, hf ▸ feedRow_append heof hesc⟩
      · exact ⟨m, hf ▸ feedRow_index hm⟩
    obtain ⟨m, hm⟩ := hrow
    refine ⟨_, _, onDecoder_ok hs hidle (feedDecoder_full rfl hm hfull), State.setDec_dec? hs _, ?_⟩
    simpa only [herr] using combineErr_second d.errCombine (old := .decodeError) (by decide) .bufInsufficient
  · intro s d b hs hidle hf herr hb
    refine ⟨_, _, onDecoder_ok hs hidle (feedDecoder_badIndex hf hb), State.setDec_dec? hs _, ?_⟩
    simpa only [herr] using combineErr_second d.errCombine (old := .bufInsufficient) (by decide) .decodeError

/-! ## Every FEED is acknowledged -/

/-- ENC.FEED adds its ACK and no other event, whether its appends had room or not (R149, R154). -/
theorem feedEncoder_acks {b : Byte} {e e' : Encoder} (h : feedEncoder b e = .ok e') :
    e'.cmd = none ∧ e'.obs = e.obs ++ [.rsp .ack] := by
  obtain ⟨u, hu, -, rfl⟩ := feedEncoder_next h
  exact ⟨rfl, by simp [hu.obs]⟩

/-- With a prompt consumer DEC.FEED adds at most a delivery and then its ACK, and leaves no delivery in progress (R126, R149,
R154). -/
theorem feedDecoder_acks {b : Byte} {d d' : Decoder} (hd : d.Prompt) (h : feedDecoder b d = .ok d') :
    d'.cmd = none ∧ d'.delivering = false ∧ ∃ ds, d'.obs = d.obs ++ ds ++ [.rsp .ack] ∧ ds.length ≤ 1 := by
  obtain ⟨-, -, hframe⟩ | ⟨u, f, hu, -, rfl⟩ := feedDecoder_next h
  · obtain ⟨vs, -, -, ⟨-, rfl⟩ | ⟨hhold, -⟩⟩ | ⟨-, rfl⟩ := completeFrame_cases hframe
    · exact ⟨rfl, hd.idle, [.dlv vs d.cursor d.err], rfl, le_rfl⟩
    · rw [hd.consumer] at hhold; cases hhold
    · exact ⟨rfl, hd.idle, [], by simp [Decoder.endFrame], Nat.zero_le _⟩
  · exact ⟨rfl, hd.idle, [], by simp [hu.obs], Nat.zero_le _⟩

/-- Settles O51: a FEED to a good instance completes, and whatever row or append it was, it ends with its ACK. -/
theorem everyFeedIsAcknowledged : Obligations.EveryFeedIsAcknowledged := by
  unfold Obligations.EveryFeedIsAcknowledged
  constructor
  · intro s e b hs he
    obtain ⟨e', he'⟩ := feedEncoder_completes b he.base.filled
    exact ⟨_, e', onEncoder_ok hs he', State.setEnc_enc? hs e', feedEncoder_acks he'⟩
  · intro s d b hs hd hidle hc
    obtain ⟨d', hd'⟩ := (DecMeaning.feed b).completes hd.base.filled
    obtain ⟨hcmd, hidle', ds, hobs, hlen⟩ := feedDecoder_acks ⟨hc, hidle⟩ hd'
    exact ⟨_, d', ds, onDecoder_ok hs hidle hd', State.setDec_dec? hs d', hcmd, hidle', hobs, hlen⟩

end Sys2Proof.Machine
end
